-- ==== Sys2Proof/Word.lean ====
section
/-! DEFINITION. Word.lean: the one word of this machine, the unsigned 8-bit byte (00_scope.md R5 `XLEN` = 8, R6, R7).
A register, a memory cell, an operand, an address and the program counter are all bytes; arithmetic on them wraps modulo 256. -/

namespace Sys2Proof

/-- An unsigned value 0..255; bit 0 is the least significant (R6, R7). -/
abbrev Byte := BitVec 8

end Sys2Proof
end

