-- ==== Sys2Proof/Config.lean ====
section
/-! DEFINITION. Config.lean: the parameters of 00_scope.md R5, each a named constant with the value of the rule's last column, and
the model's one free value. `OPCODE_MAP` is the pair of tables in Decode.lean (`decode`, `opcodeOf`). -/

namespace Sys2Proof.Config

/-- `XLEN`: the width of a general register and of a memory byte (R5). `Byte` is `BitVec` of this width (Laws/State.lean, `byte_eq`). -/
def xlen : Nat := 8

/-- `NREG`: the number of general registers (R5, R20). A register's index is a `Fin` of this bound. -/
def nreg : Nat := 8

/-- `ALEN`: the width of PC and of an address (R5, D1). An address is a `Byte`. -/
def alen : Nat := 8

/-- `NIRQ`: the number of interrupt lines (R5, R29, R55). A line is a `Fin` of this bound. -/
def nirq : Nat := 8

/-- `MEM_SIZE`: the number of bytes of Memory (R5, R50, D1). Every address is a `Byte`, so it wraps modulo this size by its type. -/
def memSize : Nat := 256

/-- `IM_REG`: the general register that is the interrupt mask (R5, R21). -/
def imReg : Fin 8 := 5

/-- `SP_REG`: the general register that is the stack pointer (R5, R21). -/
def spReg : Fin 8 := 7

/-- `SP_RESET`: R7 after reset (R5, R34, D2). UNVERIFIED by the source, the spec's default; log entry 3. -/
def spReset : Byte := 0xF4#8

/-- `IVT_BASE`: the address of slot 0 of the interrupt vector table (R5, R55, D3). UNVERIFIED by the source, the spec's default;
log entry 3. -/
def ivtBase : Byte := 0xF8#8

/-- `FUSE_INT_ENTRY`: whether a step that takes an interrupt also executes an instruction (R5, R101, D6). -/
def fuseIntEntry : Bool := false

/-- `HOST_MAY_RAISE`: whether the host may set a bit of IS between steps (R5, R246, D23). -/
def hostMayRaise : Bool := false

/-- The settings of the parameter `INT_OOR` (R174, D9, U3): what INT does when the register holds 8 or more. -/
inductive IntOor where
  /-- The spec gives the instruction no meaning. -/
  | refuse
  /-- IS is unchanged. -/
  | noBit
  /-- Bit `k mod 8` of IS is set. -/
  | mod8
  deriving DecidableEq, Repr

/-- The bits each setting ORs into IS for the register value `k` of 8 or more; `refuse` gives none. -/
def IntOor.bits (oor : IntOor) (k : Byte) : Option Byte :=
  match oor with
  | .refuse => none
  | .noBit => some 0x00#8
  | .mod8 => some (1#8 <<< (k.toNat % nirq))

/-- `INT_OOR` (R5, D9). With `refuse` the spec gives INT no bits above 7; `exec` does not stop there, the bits are then the free
value below (log entry 2). `execIntWith` and `stepWithIntOor` read any setting to the letter. -/
def intOor : IntOor := .refuse

/-- What a byte of Memory that nothing has written reads as. DESIGN CHOICE, unsafe (log entry 1): the spec gives Memory no
initial contents (R242(d), N16). -/
def unlistedByte : Byte := 0x00#8

/-- The bits INT ORs into IS when the named register holds 8..255 and `INT_OOR` gives none. DESIGN CHOICE (log entry 2): the source
defines none (R174, D9, U3), so this is a FREE VALUE, an opaque function of the register's value; whatever is proved holds for every
value of it, those of the settings `no_bit` and `mod8` among them. -/
opaque intOutOfRangeBits : Byte → Byte

end Sys2Proof.Config
end

