-- ==== Sys2Proof/Machine/State.lean ====
section
/-! DEFINITION. Machine/State.lean: the whole state of the core (10_state.md: x[0..7], PC, IR, FL, IS, IE, RUN) and of its two
collaborators, Memory (R50) and the output stream OUT (R33); the reasons a step can stop; and the state after reset (R34). -/

namespace Sys2Proof.Machine

/-- The operation a DivisionByZero diagnostic names (R31, R204). -/
inductive DivOp where
  | div
  | mod
  deriving DecidableEq, Repr

/-- Why the engine halted, with the diagnostic's content (R31, R201, D25). -/
inductive HaltCause where
  /-- HLT (R171). -/
  | hlt
  /-- The opcode byte has no dispatch entry: the byte and its address (R202). -/
  | unknownInstruction (byte pc : Byte)
  /-- DIV or MOD with a zero divisor: which of the two (R204). -/
  | divisionByZero (op : DivOp)
  /-- A register operand byte of 8..255: that byte (R203). -/
  | invalidRegister (index : Byte)
  deriving DecidableEq, Repr

/-- The run state (R31). -/
inductive RunState where
  | running
  | halted (cause : HaltCause)
  deriving DecidableEq, Repr

/-- One event of the output stream (R33): `Num(v)` from PRN, `Chr(v)` from PRA. -/
inductive OutEvent where
  | num (v : Byte)
  | chr (v : Byte)
  deriving DecidableEq, Repr

/-- The register file: eight general registers, indexed 0-7 (R20). `r5` is IM and `r7` is SP (R21). -/
structure Regs where
  r0 : Byte
  r1 : Byte
  r2 : Byte
  r3 : Byte
  r4 : Byte
  r5 : Byte
  r6 : Byte
  r7 : Byte
  deriving DecidableEq, Repr

/-- The contents of Memory (R50): the cells whose byte is not `Config.unlistedByte`. -/
abbrev Memory := List Host.Cell

/-- The canonical form: addresses strictly rising, each inside the 256-byte space (R50), no cell equal to what an unlisted address
reads as. -/
abbrev Memory.wf (m : Memory) : Prop :=
  m.Pairwise (fun c d => c.1 < d.1) ∧ ∀ c ∈ m, c.1 < Config.memSize ∧ c.2 ≠ Config.unlistedByte

/-- The machine (10_state.md R20 to R33). -/
structure State where
  /-- The general registers (R20). -/
  x : Regs
  /-- The program counter: between steps, the address of the next opcode byte (R24). -/
  pc : Byte
  /-- The instruction register: the opcode byte fetched last (R26). -/
  ir : Byte
  /-- The flags register: EQ bit 0, GT bit 1, LT bit 2 (R27). -/
  fl : Byte
  /-- The interrupt status register: bit i is 1 when line i is pending (R29). -/
  is : Byte
  /-- The interrupt-enable bit: true is armed, false is masked (R30). -/
  ie : Bool
  /-- The run state (R31). -/
  run : RunState
  /-- Memory (R50). -/
  mem : Memory
  /-- The output stream OUT, oldest event first (R33). -/
  out : List OutEvent
  deriving DecidableEq, Repr

/-- A fault. No step raises one: the fatal errors of R201 halt the engine and are next states. -/
inductive Fault where
  /-- AddressOutOfRange, "only possible if Memory size is misconfigured smaller than addressable range" (R67, R201, R205). Raised
  by `configure` alone, with the size given, never by `step`. Safe: the spec says so. -/
  | addressOutOfRange (size : Nat)
  deriving DecidableEq, Repr

/-- A refusal. No step raises one: they are the answers to what the spec gives no meaning: a host
operation, or INT out of range where `INT_OOR` = `refuse` is read to the letter. -/
inductive Refusal where
  /-- An instruction with no meaning in the model. Raised by nothing: every arm of `exec` has its meaning. Safe. -/
  | notModelled (mnemonic : String)
  /-- `loadByte` after the first step since the last reset (R244, U10, D23). Raised by `Session.apply`. Safe. -/
  | loadAfterStart
  /-- A host write to a register in mid-run (R246, U11, D23). Raised by `Session.apply`. Safe. -/
  | hostWrite
  /-- A host that raises an interrupt line while `HOST_MAY_RAISE` is false (R246, D23). Raised by `Session.apply`. Safe. -/
  | hostRaise
  /-- INT with a register value of 8..255, that value, where `INT_OOR` = `refuse` is read to the letter (R174, D9, U3). Raised by
  `execIntWith` and `stepWithIntOor`, never by `exec` or `step` (log entry 2). Safe. -/
  | intOutOfRange (value : Byte)
  /-- A Memory larger than 256 bytes (U12, D1). Raised by `configure`. Safe. -/
  | memorySize (size : Nat)
  deriving DecidableEq, Repr

/-- What a step, or the meaning of an instruction, answers. -/
abbrev Result := Host.Outcome State Fault Refusal

/-- The state after reset (R34, R241), of a newly created engine. Memory lists nothing (DESIGN CHOICE, log entry 1: the program is
loaded by `loadByte`) and OUT is empty (DESIGN CHOICE, log entry 8). -/
def State.reset : State where
  x := {
    r0 := 0x00#8, r1 := 0x00#8, r2 := 0x00#8, r3 := 0x00#8
    r4 := 0x00#8, r5 := 0x00#8, r6 := 0x00#8, r7 := Config.spReset }
  pc := 0x00#8
  ir := 0x00#8
  fl := 0x00#8
  is := 0x00#8
  ie := true
  run := .running
  mem := []
  out := []

end Sys2Proof.Machine
end

