-- ==== Sys2Proof/Machine/Flags.lean ====
section
/-! DEFINITION. Machine/Flags.lean: the three flags of FL (10_state.md R27) and the one computation that sets them (41_alu.md R122). -/

namespace Sys2Proof.Machine

/-- EQ, bit 0 of FL (R27). -/
def flagEq (fl : Byte) : Bool := fl.getLsbD 0

/-- GT, bit 1 of FL (R27). -/
def flagGt (fl : Byte) : Bool := fl.getLsbD 1

/-- LT, bit 2 of FL (R27). -/
def flagLt (fl : Byte) : Bool := fl.getLsbD 2

/-- One bit of a pseudocode condition: `1 if c else 0`. -/
def bitOf (c : Bool) : Byte := if c then 1#8 else 0#8

/-- `FL <- (FL & 0xF8) | (lt << 2) | (gt << 1) | eq`, the comparison unsigned (R122). Bits 7:3 are kept (D7). -/
def cmpFlags (fl u v : Byte) : Byte :=
  (fl &&& 0xF8#8) ||| (bitOf (u.ult v) <<< 2) ||| (bitOf (v.ult u) <<< 1) ||| bitOf (u == v)

end Sys2Proof.Machine
end

