-- ==== Sys2Proof/Machine/Ops.lean ====
section
/-! DEFINITION. Machine/Ops.lean: the named operations every meaning is written with: Memory (20_memory.md R51, R52), the register
file (10_state.md R20 to R22), Push and Pop (R56, R57), the next PC (40_dispatch.md R98), the fatal error (60_exceptions.md R200),
an output event (R33), the interrupt check (R206, R207), interrupt entry (R208) and the return from it (45_system.md R175). -/

namespace Sys2Proof.Machine

/-! ## Memory -/

/-- `MemRead(addr, 1)` (R51). -/
def Memory.read (m : Memory) (addr : Byte) : Byte :=
  (m.lookup addr.toNat).getD Config.unlistedByte

/-- Put a cell where its address belongs. -/
def Memory.insertCell (c : Host.Cell) : Memory → Memory
  | [] => [c]
  | d :: m => if c.1 < d.1 then c :: d :: m else d :: Memory.insertCell c m

/-- `MemWrite(addr, 1, v)` (R52), in canonical form: writing what an unlisted address reads as removes the cell. -/
def Memory.write (m : Memory) (addr v : Byte) : Memory :=
  if v = Config.unlistedByte then m.filter (fun c => c.1 != addr.toNat)
  else Memory.insertCell (addr.toNat, v) (m.filter (fun c => c.1 != addr.toNat))

def State.readMem (s : State) (addr : Byte) : Byte := s.mem.read addr

def State.writeMem (s : State) (addr v : Byte) : State := { s with mem := s.mem.write addr v }

/-! ## The register file -/

/-- `x[i]` (R20). -/
def Regs.get (x : Regs) (i : Fin 8) : Byte :=
  match i with
  | 0 => x.r0
  | 1 => x.r1
  | 2 => x.r2
  | 3 => x.r3
  | 4 => x.r4
  | 5 => x.r5
  | 6 => x.r6
  | 7 => x.r7

/-- `x[i] <- v` (R20). -/
def Regs.set (x : Regs) (i : Fin 8) (v : Byte) : Regs :=
  match i with
  | 0 => { x with r0 := v }
  | 1 => { x with r1 := v }
  | 2 => { x with r2 := v }
  | 3 => { x with r3 := v }
  | 4 => { x with r4 := v }
  | 5 => { x with r5 := v }
  | 6 => { x with r6 := v }
  | 7 => { x with r7 := v }

def State.getReg (s : State) (i : Fin 8) : Byte := s.x.get i

def State.setReg (s : State) (i : Fin 8) (v : Byte) : State := { s with x := s.x.set i v }

/-- `IM`, another name of x[5] (R21). -/
def State.im (s : State) : Byte := s.getReg Config.imReg

/-- `SP`, another name of x[7] (R21). -/
def State.sp (s : State) : Byte := s.getReg Config.spReg

/-! ## The stack primitives -/

/-- `Push(v)`: decrement SP, then write (R56). -/
def State.push (s : State) (v : Byte) : State :=
  (s.setReg Config.spReg (s.sp - 1#8)).writeMem (s.sp - 1#8) v

/-- `Pop()`: read, then increment SP (R57). -/
def State.pop (s : State) : Byte × State :=
  (s.readMem s.sp, s.setReg Config.spReg (s.sp + 1#8))

/-- `Push` of each value in turn. -/
def State.pushAll (s : State) : List Byte → State
  | [] => s
  | v :: vs => (s.push v).pushAll vs

/-- `x[i] <- Pop()`. -/
def State.popReg (s : State) (i : Fin 8) : State := s.pop.2.setReg i s.pop.1

/-! ## Ending an instruction -/

/-- Next-PC resolution of an instruction with `n` operand bytes (R25, R98): its destination, or `PC + n + 1`. -/
def State.resolvePc (s : State) (n : Nat) (dest : Option Byte) : State :=
  { s with pc := dest.getD (s.pc + BitVec.ofNat 8 (n + 1)) }

/-- TAKING A FATAL ERROR: `raise E(info)` commits `RUN <- Halted(E(info))`, and of the instruction nothing else (R100, R200). IR
was committed by the fetch (R92); PC stays at the failing instruction. -/
def State.raise (s : State) (cause : HaltCause) : State := { s with run := .halted cause }

/-- `Emit(e)` (R33). -/
def State.emit (s : State) (e : OutEvent) : State := { s with out := s.out ++ [e] }

/-! ## Interrupts -/

/-- `1 << i` (R7). -/
def lineBit (i : Fin 8) : Byte := 1#8 <<< i.val

/-- The lowest line whose bit is set (R207, D8). -/
def lowestLine (pending : Byte) : Option (Fin 8) :=
  [0, 1, 2, 3, 4, 5, 6, 7].find? fun i : Fin 8 => pending.getLsbD i.val

/-- `IS & x[5]`, the pending lines that are not masked off (R206). -/
def State.pending (s : State) : Byte := s.is &&& s.im

/-- The interrupt check at the start of a running step (R206): the line taken, if any. -/
def State.takenLine (s : State) : Option (Fin 8) :=
  if s.ie then lowestLine s.pending else none

/-- `IVT_BASE + i`, the address of slot `i` of the vector table (R55, R210). -/
def vectorAddress (i : Fin 8) : Byte := Config.ivtBase + BitVec.ofNat 8 i.val

/-- The nine values interrupt entry saves, in the order it pushes them (R208). -/
def State.frame (s : State) : List Byte :=
  [s.pc, s.fl, s.getReg 0, s.getReg 1, s.getReg 2, s.getReg 3, s.getReg 4, s.getReg 5, s.getReg 6]

/-- TAKING AN INTERRUPT on line `i` (R208): clear its bit of IS, push the frame, read the vector after the pushes (D26), mask. -/
def State.interruptEntry (s : State) (i : Fin 8) : State :=
  let t := ({ s with is := s.is &&& ~~~(lineBit i) } : State).pushAll s.frame
  { t with pc := t.readMem (vectorAddress i), ie := false }

/-- The pops of IRET (R175): x[6] down to x[0], in that order. -/
def State.popRegs (s : State) : State :=
  ((((((s.popReg 6).popReg 5).popReg 4).popReg 3).popReg 2).popReg 1).popReg 0

/-- THE RETURN FROM AN INTERRUPT (R175): pop the registers, FL and the PC; re-arm. -/
def State.interruptReturn (s : State) : State :=
  let r := s.popRegs
  let f := r.pop
  let p := f.2.pop
  { p.2 with fl := f.1, pc := p.1, ie := true }

end Sys2Proof.Machine
end

