-- ==== Sys2Proof/Machine/Operands.lean ====
section
/-! DEFINITION. Machine/Operands.lean: the register operands of formats R, RR and RI (30_encoding.md R72, R73) and the check made on
them before anything is changed (40_dispatch.md R95). -/

namespace Sys2Proof.Machine

/-- The register an operand byte names: the whole byte is the index, 0..7 (R73, D13). -/
def registerIndex (a : Byte) : Option (Fin 8) :=
  if h : a.toNat < 8 then some ⟨a.toNat, h⟩ else none

/-- Run `k` on the register that `a` names; a byte of 8..255 raises InvalidRegister, with no other effect (R95, R203). -/
def withReg (a : Byte) (s : State) (k : Fin 8 → Result) : Result :=
  match registerIndex a with
  | some i => k i
  | none => .next (s.raise (.invalidRegister a))

/-- Two register operands: `a` is checked before `b` (R95, R97). -/
def withRegs (a b : Byte) (s : State) (k : Fin 8 → Fin 8 → Result) : Result :=
  withReg a s fun i => withReg b s fun j => k i j

end Sys2Proof.Machine
end

