-- ==== Sys2Proof/Machine/Alu.lean ====
section
/-! DEFINITION. Machine/Alu.lean: the twelve ALU instructions (41_alu.md R110 to R123). -/

namespace Sys2Proof.Machine

/-- A two-operand ALU instruction that writes its destination: `x[a] <- f(x[a], x[b])`, FL untouched (R110). -/
def aluBinary (f : Byte → Byte → Byte) (a b : Byte) (s : State) : Result :=
  withRegs a b s fun i j => .next ((s.setReg i (f (s.getReg i) (s.getReg j))).resolvePc 2 none)

/-- A one-operand ALU instruction: `x[a] <- f(x[a])`, FL untouched (R110). -/
def aluUnary (f : Byte → Byte) (a : Byte) (s : State) : Result :=
  withReg a s fun i => .next ((s.setReg i (f (s.getReg i))).resolvePc 1 none)

/-- DIV and MOD: a zero divisor raises DivisionByZero before the destination is written (R114, R115, R204). -/
def aluDivide (op : DivOp) (f : Byte → Byte → Byte) (a b : Byte) (s : State) : Result :=
  withRegs a b s fun i j =>
    if s.getReg j = 0#8 then .next (s.raise (.divisionByZero op))
    else .next ((s.setReg i (f (s.getReg i) (s.getReg j))).resolvePc 2 none)

/-- ADD regA, regB: `x[a] <- (x[a] + x[b]) mod 256` (R111). -/
def execAdd (a b : Byte) (s : State) : Result := aluBinary (fun u v => u + v) a b s

/-- SUB regA, regB: `x[a] <- (x[a] - x[b]) mod 256` (R112). -/
def execSub (a b : Byte) (s : State) : Result := aluBinary (fun u v => u - v) a b s

/-- MUL regA, regB: the low 8 bits of the product (R113). -/
def execMul (a b : Byte) (s : State) : Result := aluBinary (fun u v => u * v) a b s

/-- DIV regA, regB: the floor of the unsigned quotient (R114). -/
def execDiv (a b : Byte) (s : State) : Result := aluDivide .div (fun u v => u / v) a b s

/-- MOD regA, regB: the unsigned remainder (R115). -/
def execMod (a b : Byte) (s : State) : Result := aluDivide .mod (fun u v => u % v) a b s

/-- INC regA: `x[a] <- (x[a] + 1) mod 256` (R116). -/
def execInc (a : Byte) (s : State) : Result := aluUnary (fun u => u + 1#8) a s

/-- DEC regA: `x[a] <- (x[a] - 1) mod 256` (R117). -/
def execDec (a : Byte) (s : State) : Result := aluUnary (fun u => u - 1#8) a s

/-- AND regA, regB (R118). -/
def execAnd (a b : Byte) (s : State) : Result := aluBinary (fun u v => u &&& v) a b s

/-- OR regA, regB (R119). -/
def execOr (a b : Byte) (s : State) : Result := aluBinary (fun u v => u ||| v) a b s

/-- XOR regA, regB (R120). -/
def execXor (a b : Byte) (s : State) : Result := aluBinary (fun u v => u ^^^ v) a b s

/-- NOT regA: `x[a] <- (~x[a]) & 0xFF` (R121). -/
def execNot (a : Byte) (s : State) : Result := aluUnary (fun u => ~~~u) a s

/-- CMP regA, regB: rewrites EQ, GT and LT; no register is written (R122). -/
def execCmp (a b : Byte) (s : State) : Result :=
  withRegs a b s fun i j =>
    .next (({ s with fl := cmpFlags s.fl (s.getReg i) (s.getReg j) } : State).resolvePc 2 none)

end Sys2Proof.Machine
end

