-- ==== Sys2Proof/Machine/Control.lean ====
section
/-! DEFINITION. Machine/Control.lean: JMP, JEQ, JNE, JGT, JLT, CALL and RET (44_control.md R150 to R157). -/

namespace Sys2Proof.Machine

/-- A jump to `x[a]` when `taken`, else the default advance; the index is checked either way (R95, R98). -/
def jumpIf (taken : Bool) (a : Byte) (s : State) : Result :=
  withReg a s fun i => .next (s.resolvePc 1 (if taken then some (s.getReg i) else none))

/-- JMP regA (R151, D17). -/
def execJmp (a : Byte) (s : State) : Result := jumpIf true a s

/-- JEQ regA: taken when EQ is set (R152). -/
def execJeq (a : Byte) (s : State) : Result := jumpIf (flagEq s.fl) a s

/-- JNE regA: taken when EQ is clear (R153). -/
def execJne (a : Byte) (s : State) : Result := jumpIf (!flagEq s.fl) a s

/-- JGT regA: taken when GT is set (R154). -/
def execJgt (a : Byte) (s : State) : Result := jumpIf (flagGt s.fl) a s

/-- JLT regA: taken when LT is set (R155). -/
def execJlt (a : Byte) (s : State) : Result := jumpIf (flagLt s.fl) a s

/-- CALL regA: the target is read before SP moves; the return address is `PC + 2` (R156, D11). -/
def execCall (a : Byte) (s : State) : Result :=
  withReg a s fun i => .next ((s.push (s.pc + 2#8)).resolvePc 1 (some (s.getReg i)))

/-- RET: pop the PC (R157). -/
def execRet (s : State) : Result := .next (s.pop.2.resolvePc 0 (some s.pop.1))

end Sys2Proof.Machine
end

