-- ==== Sys2Proof/Machine/DataMove.lean ====
section
/-! DEFINITION. Machine/DataMove.lean: LDI, LD and ST (42_data_move.md R130 to R132). -/

namespace Sys2Proof.Machine

/-- LDI regA, immediate: `x[a] <- imm`; the immediate is never checked (R130). -/
def execLdi (a imm : Byte) (s : State) : Result :=
  withReg a s fun i => .next ((s.setReg i imm).resolvePc 2 none)

/-- LD regA, regB: `x[a] <- MemRead(x[b], 1)` (R131, D16). -/
def execLd (a b : Byte) (s : State) : Result :=
  withRegs a b s fun i j => .next ((s.setReg i (s.readMem (s.getReg j))).resolvePc 2 none)

/-- ST regA, regB: `MemWrite(x[a], 1, x[b])` (R132, D16). -/
def execSt (a b : Byte) (s : State) : Result :=
  withRegs a b s fun i j => .next ((s.writeMem (s.getReg i) (s.getReg j)).resolvePc 2 none)

end Sys2Proof.Machine
end

