-- ==== Sys2Proof/Machine/Stack.lean ====
section
/-! DEFINITION. Machine/Stack.lean: PUSH and POP (43_stack.md R140, R141), over the primitives of 20_memory.md R56 and R57. -/

namespace Sys2Proof.Machine

/-- PUSH regA: `x[a]` is read before SP moves, so PUSH R7 stores the old SP (R96, R140, D11). -/
def execPush (a : Byte) (s : State) : Result :=
  withReg a s fun i => .next ((s.push (s.getReg i)).resolvePc 1 none)

/-- POP regA: the register is written after SP moves, so POP R7 ends with the popped byte (R141, D11). -/
def execPop (a : Byte) (s : State) : Result :=
  withReg a s fun i => .next ((s.popReg i).resolvePc 1 none)

end Sys2Proof.Machine
end

