-- ==== Sys2Proof/Machine/System.lean ====
section
/-! DEFINITION. Machine/System.lean: NOP, HLT, PRN, PRA, INT and IRET (45_system.md R170 to R175). -/

namespace Sys2Proof.Machine

/-- NOP: only the default advance (R170, D17). -/
def execNop (s : State) : Result := .next (s.resolvePc 0 none)

/-- HLT: `RUN <- Halted(Hlt)`, and the PC advances past it (R171, D12). -/
def execHlt (s : State) : Result := .next (({ s with run := .halted .hlt } : State).resolvePc 0 none)

/-- PRN regA: `Emit(Num(x[a]))` (R172). -/
def execPrn (a : Byte) (s : State) : Result :=
  withReg a s fun i => .next ((s.emit (.num (s.getReg i))).resolvePc 1 none)

/-- PRA regA: `Emit(Chr(x[a]))` (R173). -/
def execPra (a : Byte) (s : State) : Result :=
  withReg a s fun i => .next ((s.emit (.chr (s.getReg i))).resolvePc 1 none)

/-- The bits INT ORs into IS for the register value `k` (R174): bit `k` for 0..7; above 7 what the setting of `INT_OOR` says. -/
def intBitsWith (oor : Config.IntOor) (k : Byte) : Option Byte :=
  if k.toNat ≤ 7 then some (1#8 <<< k.toNat) else oor.bits k

/-- The bits INT ORs into IS in this model: those of R174 under `INT_OOR`; where it gives none, the free value of Config (DESIGN
CHOICE, log entry 2). -/
def intBits (k : Byte) : Byte := (intBitsWith Config.intOor k).getD (Config.intOutOfRangeBits k)

/-- INT regA: `IS <- IS | (1 << x[a])`; nothing is pushed, the interrupt is taken by a later step (R174, D9). -/
def execInt (a : Byte) (s : State) : Result :=
  withReg a s fun i =>
    .next (({ s with is := s.is ||| intBits (s.getReg i) } : State).resolvePc 1 none)

/-- INT under a setting of `INT_OOR` read to the letter (R174, D9, U3): `refuse` refuses by name. `exec` calls `execInt`, not this. -/
def execIntWith (oor : Config.IntOor) (a : Byte) (s : State) : Result :=
  withReg a s fun i =>
    match intBitsWith oor (s.getReg i) with
    | some bits => .next (({ s with is := s.is ||| bits } : State).resolvePc 1 none)
    | none => .refused (.intOutOfRange (s.getReg i))

/-- IRET: the return from an interrupt; nothing checks that one was entered (R175, D27). -/
def execIret (s : State) : Result := .next s.interruptReturn

end Sys2Proof.Machine
end

