-- ==== Sys2Proof/Syntax.lean ====
section
/-! DEFINITION. Syntax.lean: the 30 instructions of 30_encoding.md R75, one constructor per row of spec/opcode_table.json, in the
table's order. An operand is the raw operand byte (R72): `a` and `b` are register indices as encoded, of which only 0..7 are legal
(R73), and an illegal one is an error of the instruction (R95, R203), so it must be expressible. `imm` is LDI's immediate (R74). -/

namespace Sys2Proof

inductive Instr where
  | nop
  | hlt
  | ret
  | iret
  | pra (a : Byte)
  | prn (a : Byte)
  | call (a : Byte)
  | int (a : Byte)
  | pop (a : Byte)
  | push (a : Byte)
  | jmp (a : Byte)
  | jeq (a : Byte)
  | jne (a : Byte)
  | jlt (a : Byte)
  | jgt (a : Byte)
  | not (a : Byte)
  | inc (a : Byte)
  | dec (a : Byte)
  | ld (a b : Byte)
  | ldi (a imm : Byte)
  | st (a b : Byte)
  | cmp (a b : Byte)
  | add (a b : Byte)
  | sub (a b : Byte)
  | mul (a b : Byte)
  | div (a b : Byte)
  | mod (a b : Byte)
  | or (a b : Byte)
  | xor (a b : Byte)
  | and (a b : Byte)
  deriving DecidableEq, Repr

end Sys2Proof
end

