-- ==== Sys2Proof/WellFormed.lean ====
section
/-! DEFINITION. WellFormed.lean: which instructions a well-formed program holds: those whose register operand bytes are 0..7 (R73).
An ill-formed instruction still decodes and executes: it raises InvalidRegister (R95). -/

namespace Sys2Proof

/-- The operand bytes that are register indices, in the order they are checked (R22, R95). LDI's immediate is none (R95). -/
def Instr.registerOperands : Instr → List Byte
  | .nop => []
  | .hlt => []
  | .ret => []
  | .iret => []
  | .pra a => [a]
  | .prn a => [a]
  | .call a => [a]
  | .int a => [a]
  | .pop a => [a]
  | .push a => [a]
  | .jmp a => [a]
  | .jeq a => [a]
  | .jne a => [a]
  | .jlt a => [a]
  | .jgt a => [a]
  | .not a => [a]
  | .inc a => [a]
  | .dec a => [a]
  | .ld a b => [a, b]
  | .ldi a _ => [a]
  | .st a b => [a, b]
  | .cmp a b => [a, b]
  | .add a b => [a, b]
  | .sub a b => [a, b]
  | .mul a b => [a, b]
  | .div a b => [a, b]
  | .mod a b => [a, b]
  | .or a b => [a, b]
  | .xor a b => [a, b]
  | .and a b => [a, b]

/-- Every register operand byte has the form `00000rrr` (R73). -/
def Instr.wellFormed (i : Instr) : Bool :=
  i.registerOperands.all fun r => r.toNat < 8

abbrev WellFormed (i : Instr) : Prop := i.wellFormed = true

end Sys2Proof
end

