-- ==== Sys2Proof/Decode.lean ====
section
/-! DEFINITION. Decode.lean: the opcode table of 30_encoding.md R75 read both ways. `decode` is the dispatcher's look-up of the whole
opcode byte (R94), total on any bytes and rejecting an unknown opcode by name; `opcodeOf` and `encode` write the words of an
instruction from the same rows. The byte values are the spec's default `OPCODE_MAP` (D4), UNVERIFIED by the source: log entry 3. -/

namespace Sys2Proof

/-- Why bytes are no instruction: the opcode byte has no entry in the dispatch table (R77, R94). -/
inductive DecodeError where
  | unknownInstruction (opcode : Byte)
  deriving DecidableEq, Repr

/-- `n = IR[7:6]`, the number of operand bytes that follow the opcode byte (R71). The value 3 belongs to no instruction (R78). -/
def operandCount (opcode : Byte) : Nat := opcode.toNat / 64

/-- The dispatch table (R75, R94): `op` is the opcode byte, `a` and `b` the first and second operand byte. A format that has no
second (or no first) operand ignores it. -/
def decode (op a b : Byte) : Except DecodeError Instr :=
  match op with
  | 0x00#8 => .ok .nop
  | 0x01#8 => .ok .hlt
  | 0x09#8 => .ok .ret
  | 0x0B#8 => .ok .iret
  | 0x42#8 => .ok (.pra a)
  | 0x43#8 => .ok (.prn a)
  | 0x48#8 => .ok (.call a)
  | 0x4A#8 => .ok (.int a)
  | 0x4C#8 => .ok (.pop a)
  | 0x4D#8 => .ok (.push a)
  | 0x50#8 => .ok (.jmp a)
  | 0x51#8 => .ok (.jeq a)
  | 0x52#8 => .ok (.jne a)
  | 0x53#8 => .ok (.jlt a)
  | 0x54#8 => .ok (.jgt a)
  | 0x70#8 => .ok (.not a)
  | 0x78#8 => .ok (.inc a)
  | 0x79#8 => .ok (.dec a)
  | 0x98#8 => .ok (.ld a b)
  | 0x99#8 => .ok (.ldi a b)
  | 0x9A#8 => .ok (.st a b)
  | 0xA0#8 => .ok (.cmp a b)
  | 0xA8#8 => .ok (.add a b)
  | 0xA9#8 => .ok (.sub a b)
  | 0xAA#8 => .ok (.mul a b)
  | 0xAB#8 => .ok (.div a b)
  | 0xAC#8 => .ok (.mod a b)
  | 0xB1#8 => .ok (.or a b)
  | 0xB2#8 => .ok (.xor a b)
  | 0xB3#8 => .ok (.and a b)
  | _ => .error (.unknownInstruction op)

/-- The opcode byte of an instruction (R75). -/
def opcodeOf : Instr → Byte
  | .nop => 0x00#8
  | .hlt => 0x01#8
  | .ret => 0x09#8
  | .iret => 0x0B#8
  | .pra _ => 0x42#8
  | .prn _ => 0x43#8
  | .call _ => 0x48#8
  | .int _ => 0x4A#8
  | .pop _ => 0x4C#8
  | .push _ => 0x4D#8
  | .jmp _ => 0x50#8
  | .jeq _ => 0x51#8
  | .jne _ => 0x52#8
  | .jlt _ => 0x53#8
  | .jgt _ => 0x54#8
  | .not _ => 0x70#8
  | .inc _ => 0x78#8
  | .dec _ => 0x79#8
  | .ld _ _ => 0x98#8
  | .ldi _ _ => 0x99#8
  | .st _ _ => 0x9A#8
  | .cmp _ _ => 0xA0#8
  | .add _ _ => 0xA8#8
  | .sub _ _ => 0xA9#8
  | .mul _ _ => 0xAA#8
  | .div _ _ => 0xAB#8
  | .mod _ _ => 0xAC#8
  | .or _ _ => 0xB1#8
  | .xor _ _ => 0xB2#8
  | .and _ _ => 0xB3#8

/-- The operand bytes that follow the opcode byte (R70, R72): the register operands, and for LDI the immediate after them. -/
def operandBytes : Instr → List Byte
  | .ldi a imm => [a, imm]
  | i => i.registerOperands

/-- The bytes of an instruction at ascending addresses (R61, R70). -/
def encode (i : Instr) : List Byte :=
  opcodeOf i :: operandBytes i

/-- The operand byte that names general register `r` (R73). -/
def regByte (r : Fin 8) : Byte := BitVec.ofNat 8 r.val

/-- Byte `k` of a number whose bit 0 is the least significant bit of the first byte (how spec/opcode_table.json numbers bits). -/
def tableByte (w k : Nat) : Byte := BitVec.ofNat 8 (w >>> (8 * k))

/-- What the decoder reads from an instruction of `nbits` bits `w` (numbered as spec/opcode_table.json numbers them), every bit
above `nbits` being 0. -/
def decodeTableWord (nbits w : Nat) : Option Instr :=
  let v := w % 2 ^ nbits
  match decode (tableByte v 0) (tableByte v 1) (tableByte v 2) with
  | .ok i => some i
  | .error _ => none

end Sys2Proof
end

