-- ==== Sys2Proof/Machine/Fetch.lean ====
section
/-! DEFINITION. Machine/Fetch.lean: fetch, operand fetch and look-up (40_dispatch.md R92 to R94). -/

namespace Sys2Proof.Machine

/-- The opcode byte at PC (R92). -/
def State.opcodeByte (s : State) : Byte := s.readMem s.pc

/-- The first operand byte, read when `n` is 1 or 2; for `n` = 3 none is read (R78, R93). -/
def State.operandA (s : State) : Byte :=
  match operandCount s.opcodeByte with
  | 1 => s.readMem (s.pc + 1#8)
  | 2 => s.readMem (s.pc + 1#8)
  | _ => 0#8

/-- The second operand byte, read when `n` is 2 (R93). -/
def State.operandB (s : State) : Byte :=
  match operandCount s.opcodeByte with
  | 2 => s.readMem (s.pc + 2#8)
  | _ => 0#8

/-- The look-up of the fetched bytes in the dispatch table (R94). -/
def State.decodeNext (s : State) : Except DecodeError Instr :=
  decode s.opcodeByte s.operandA s.operandB

/-- `IR <- MemRead(PC, 1)`, committed even when the step then ends in a fatal error (R92, R100). -/
def State.fetched (s : State) : State := { s with ir := s.opcodeByte }

end Sys2Proof.Machine
end

