-- ==== Sys2Proof/Machine/Cycle.lean ====
section
/-! DEFINITION. Machine/Cycle.lean: the step of 40_dispatch.md R90, for either value of the parameter `FUSE_INT_ENTRY` (R101, D6). -/

namespace Sys2Proof.Machine

/-- Fetch, decode, execute (R92 to R98). An opcode byte with no dispatch entry raises UnknownInstruction with the byte and the PC
(R94, R202). -/
def State.instructionStep (s : State) : Result :=
  match s.decodeNext with
  | .ok i => exec i s.fetched
  | .error (.unknownInstruction b) => .next (s.fetched.raise (.unknownInstruction b s.pc))

/-- `Step()` (R90): a halted engine does nothing (R91); a running one takes the interrupt the check finds, which is a whole step
unless `fuse` (R101); else it runs one instruction. -/
def stepWith (fuse : Bool) (s : State) : Result :=
  match s.run with
  | .halted _ => .next s
  | .running =>
    match s.takenLine with
    | some i => if fuse then (s.interruptEntry i).instructionStep else .next (s.interruptEntry i)
    | none => s.instructionStep

/-- The step of R90 under a setting of `INT_OOR` read to the letter (R174, D9); it differs from `step` in INT with a register value
above 7 alone. -/
def stepWithIntOor (oor : Config.IntOor) (s : State) : Result :=
  match s.run, s.takenLine, s.decodeNext with
  | .running, none, .ok (.int a) => execIntWith oor a s.fetched
  | _, _, _ => stepWith Config.fuseIntEntry s

/-- The memory of `s` with an instruction of `nbits` bits `w` (numbered as the opcode table numbers them, zeros above) at PC,
PC + 1 and PC + 2 (R61, R70), the three bytes of the longest instruction. -/
def State.placeWord (s : State) (nbits w : Nat) : State :=
  let v := w % 2 ^ nbits
  ((s.writeMem s.pc (tableByte v 0)).writeMem (s.pc + 1#8) (tableByte v 1)).writeMem (s.pc + 2#8) (tableByte v 2)

/-- The engine made ready to fetch in its next step: running (R91), and masked only if the interrupt check would otherwise take a
line first (R206). A running state with no line to take is left as it is. -/
def State.readyToFetch (s : State) : State :=
  { s with run := .running, ie := s.ie && s.takenLine.isNone }

end Sys2Proof.Machine
end

