-- ==== Sys2Proof/Machine/Step.lean ====
section
/-! DEFINITION. Machine/Step.lean: the machine's step, with the spec's default `FUSE_INT_ENTRY` = false (40_dispatch.md R90, R101), and
the placing of an instruction where that step fetches. -/

namespace Sys2Proof.Machine

/-- One step (R90). -/
def step (s : State) : Host.Outcome State Fault Refusal := stepWith Config.fuseIntEntry s

/-- `s` with the instruction placed at PC, so that the next step fetches and runs exactly it (log entry 7). -/
def State.withFetchWord (s : State) (nbits w : Nat) : State := (s.placeWord nbits w).readyToFetch

end Sys2Proof.Machine
end

