-- ==== Sys2Proof/Machine/HostOps.lean ====
section
/-! DEFINITION. Machine/HostOps.lean: what the host driver may do between steps (70_reset_and_hazards.md R243 to R246): configure,
reset, loadByte, step, query the status, read through accessors; and what it may not. -/

namespace Sys2Proof.Machine

/-- A newly created engine over a Memory of `size` bytes (R67, R241). A smaller Memory is the configuration-time error
AddressOutOfRange (R67, R201); a larger one is outside this spec (U12, D1). The initial contents are an input (R242(d)). -/
def configure (size : Nat) (contents : Memory) : Result :=
  if size < Config.memSize then .fault (.addressOutOfRange size)
  else if size = Config.memSize then .next { State.reset with mem := contents }
  else .refused (.memorySize size)

/-- `reset()` (R240): every piece of core state to its reset value; Memory and OUT are not touched (D10). -/
def State.hostReset (s : State) : State := { State.reset with mem := s.mem, out := s.out }

/-- `StepResult` (R99). -/
inductive StepResult where
  | continue
  | halted
  deriving DecidableEq, Repr

/-- The result of the step that ended in `s` (R99). -/
def State.stepResult (s : State) : StepResult :=
  match s.run with
  | .running => .continue
  | .halted _ => .halted

/-- The status query: the halt cause, if the engine is halted (R31, R245). -/
def State.haltCause (s : State) : Option HaltCause :=
  match s.run with
  | .running => none
  | .halted c => some c

/-- The byte accessors (R36, R246): the indexed general registers, and PC, IR, FL, IM, IS. -/
inductive Accessor where
  | gpr (i : Fin 8)
  | pc
  | ir
  | fl
  | im
  | is
  deriving DecidableEq, Repr

/-- A read through an accessor; it changes nothing (R36). IE and RUN are read with `State.ie` and `State.haltCause` (D23). -/
def State.readAccessor (s : State) : Accessor → Byte
  | .gpr i => s.getReg i
  | .pc => s.pc
  | .ir => s.ir
  | .fl => s.fl
  | .im => s.im
  | .is => s.is

/-- A write through an accessor (R36): that register alone; `im` writes x[5] (R21). -/
def State.writeAccessor (s : State) (which : Accessor) (v : Byte) : State :=
  match which with
  | .gpr i => s.setReg i v
  | .pc => { s with pc := v }
  | .ir => { s with ir := v }
  | .fl => { s with fl := v }
  | .im => s.setReg Config.imReg v
  | .is => { s with is := v }

/-- The register an accessor reaches: IM is x[5] (R21), every other accessor has a register of its own. -/
def Accessor.home : Accessor → Accessor
  | .im => .gpr Config.imReg
  | w => w

/-- A sink's text for an event (R172, R173, D24): the shortest unsigned decimal numeral, or the character with that code point. How
a sink ends a line, and how it renders control codes and code points above 127, is outside the core (U16). -/
def OutEvent.text : OutEvent → String
  | .num v => Nat.repr v.toNat
  | .chr v => String.singleton (Char.ofNat v.toNat)

/-- What the host can ask for between steps (R243). -/
inductive HostOp where
  | reset
  | loadByte (address value : Byte)
  | step
  | raiseLine (i : Fin 8)
  | writeAccessor (which : Accessor) (value : Byte)
  deriving DecidableEq, Repr

/-- An engine and its host: the machine, and whether a step has been invoked since the last reset. That bit is the model's own, no
state of the core: `loadByte` and writes through accessors have a meaning only before it is set (R244, R246, D23). -/
structure Session where
  core : State
  started : Bool
  deriving DecidableEq, Repr

/-- OR bit `i` into IS, an external device raising line `i`, if `may` (`HOST_MAY_RAISE`) allows it (R246). -/
def Session.raiseLineWith (may : Bool) (i : Fin 8) (h : Session) : Host.Outcome Session Fault Refusal :=
  if may then .next { h with core := { h.core with is := h.core.is ||| lineBit i } } else .refused .hostRaise

/-- One host operation (R240, R244 to R246, D23). -/
def Session.apply (h : Session) : HostOp → Host.Outcome Session Fault Refusal
  | .reset => .next { core := h.core.hostReset, started := false }
  | .loadByte address value =>
    if h.started then .refused .loadAfterStart
    else .next { h with core := h.core.writeMem address value }
  | .step =>
    match Sys2Proof.Machine.step h.core with
    | .next s => .next { core := s, started := true }
    | .fault r => .fault r
    | .refused r => .refused r
  | .raiseLine i => h.raiseLineWith Config.hostMayRaise i
  | .writeAccessor which value =>
    if h.started then .refused .hostWrite
    else .next { h with core := h.core.writeAccessor which value }

end Sys2Proof.Machine
end

