-- ==== Sys2Proof/Safety.lean ====
section
/-! DEFINITION. Safety.lean: the terms claims are stated in: what a safe state is (`Inv`), and what an instruction changes and what it
leaves unchanged. -/

namespace Sys2Proof.Machine

/-! ## The invariant -/

/-- A halted engine is "halted at the PC/IR of the failing instruction" (R200, R202 to R204), or past a HLT (R171). -/
def HaltCoherent (s : State) : Prop :=
  match s.run with
  | .running => True
  | .halted .hlt => s.ir = 0x01#8
  | .halted (.unknownInstruction b p) => s.ir = b ∧ s.pc = p ∧ ∀ x y, decode b x y = .error (.unknownInstruction b)
  | .halted (.divisionByZero .div) => s.ir = 0xAB#8
  | .halted (.divisionByZero .mod) => s.ir = 0xAC#8
  | .halted (.invalidRegister r) => 8 ≤ r.toNat ∧ ∃ i : Instr, opcodeOf i = s.ir ∧ r ∈ i.registerOperands

/-- A safe state: Memory is in canonical form, and a halt cause agrees with IR and PC. -/
def Inv (s : State) : Prop := s.mem.wf ∧ HaltCoherent s

/-! ## Frames -/

/-- IR, IS, IE and RUN are unchanged. -/
def KeepsControl (s t : State) : Prop := t.ir = s.ir ∧ t.is = s.is ∧ t.ie = s.ie ∧ t.run = s.run

/-- Every general register outside `l` is unchanged. -/
def KeepsRegsBut (l : List (Fin 8)) (s t : State) : Prop := ∀ k, k ∉ l → t.getReg k = s.getReg k

/-- Every byte of Memory at an address outside `l` reads as before. -/
def KeepsMemBut (l : List Byte) (s t : State) : Prop := ∀ a, a ∉ l → t.readMem a = s.readMem a

/-- The PC is `n` higher, modulo 256 (R25). -/
def PcPlus (n : Nat) (s t : State) : Prop := t.pc.toNat = (s.pc.toNat + n) % 256

/-- `i` runs from `s`, leaves `v` in register `d` and the PC `n` higher, and changes nothing else. -/
def PutsRegister (i : Instr) (s : State) (d : Fin 8) (v n : Nat) : Prop :=
  ∃ t, exec i s = .next t ∧ (t.getReg d).toNat = v ∧ PcPlus n s t ∧
    KeepsRegsBut [d] s t ∧ t.fl = s.fl ∧ KeepsControl s t ∧ t.out = s.out ∧ KeepsMemBut [] s t

/-- `i` runs from `s`, leaves the PC at `p`, and changes nothing else. -/
def OnlySetsPc (i : Instr) (s : State) (p : Nat) : Prop :=
  ∃ t, exec i s = .next t ∧ t.pc.toNat = p ∧
    KeepsRegsBut [] s t ∧ t.fl = s.fl ∧ KeepsControl s t ∧ t.out = s.out ∧ KeepsMemBut [] s t

/-- `i` runs from `s`, appends `e` to OUT, leaves the PC `n` higher, and changes nothing else. -/
def OnlyEmits (i : Instr) (s : State) (e : OutEvent) (n : Nat) : Prop :=
  ∃ t, exec i s = .next t ∧ t.out = s.out ++ [e] ∧ PcPlus n s t ∧
    KeepsRegsBut [] s t ∧ t.fl = s.fl ∧ KeepsControl s t ∧ KeepsMemBut [] s t

/-- `i` raises `c` from `s`: RUN is halted with that cause, and nothing else changes (R200). -/
def Raises (i : Instr) (s : State) (c : HaltCause) : Prop := exec i s = .next { s with run := .halted c }

/-! ## Encodings and the operand check -/

/-- Format Z: the opcode byte alone (R70, R72). -/
def EncodedZ (i : Instr) (op : Byte) : Prop :=
  encode i = [op] ∧ ∀ x y, decode op x y = .ok i

/-- Format R: the opcode byte and one register byte (R70, R72). -/
def EncodedR (mk : Byte → Instr) (op : Byte) : Prop :=
  ∀ a, encode (mk a) = [op, a] ∧ ∀ y, decode op a y = .ok (mk a)

/-- Formats RR and RI: the opcode byte and two operand bytes (R70, R72). -/
def EncodedRR (mk : Byte → Byte → Instr) (op : Byte) : Prop :=
  ∀ a b, encode (mk a b) = [op, a, b] ∧ decode op a b = .ok (mk a b)

/-- A register byte above 7 raises InvalidRegister with that byte (R95, R203). -/
def ChecksR (mk : Byte → Instr) : Prop :=
  ∀ a s, 8 ≤ a.toNat → Raises (mk a) s (.invalidRegister a)

/-- Either register byte above 7 raises InvalidRegister, the first one first (R95, R97, R203). -/
def ChecksRR (mk : Byte → Byte → Instr) : Prop :=
  ∀ a b s, (8 ≤ a.toNat → Raises (mk a b) s (.invalidRegister a)) ∧
    (a.toNat < 8 → 8 ≤ b.toNat → Raises (mk a b) s (.invalidRegister b))

/-! ## What a step does -/

/-- The step of `s` executes an instruction: the engine runs and the interrupt check takes no line (R101, R206). -/
def RunsInstruction (s : State) : Prop := s.run = .running ∧ s.takenLine = none

/-- The step of `s` enters the handler of line `i` (R101, R206). -/
def TakesLine (s : State) (i : Fin 8) : Prop := s.run = .running ∧ s.takenLine = some i

/-- The instruction the step of `s` fetches is `i`: PC, PC + 1 and PC + 2 hold its bytes (R61, R92, R93). -/
def FetchesInstr (s : State) (i : Instr) : Prop :=
  decode (s.readMem s.pc) (s.readMem (s.pc + 1#8)) (s.readMem (s.pc + 2#8)) = .ok i

/-- The 30 byte values of the opcode table (R75, D4). -/
def opcodeValues : List Byte :=
  [0x00#8, 0x01#8, 0x09#8, 0x0B#8, 0x42#8, 0x43#8, 0x48#8, 0x4A#8, 0x4C#8, 0x4D#8, 0x50#8, 0x51#8, 0x52#8, 0x53#8, 0x54#8,
    0x70#8, 0x78#8, 0x79#8, 0x98#8, 0x99#8, 0x9A#8, 0xA0#8, 0xA8#8, 0xA9#8, 0xAA#8, 0xAB#8, 0xAC#8, 0xB1#8, 0xB2#8, 0xB3#8]

/-- The nine addresses an interrupt entry from `s` pushes to, the last one the new SP (R209). -/
def frameAddresses (s : State) : List Byte :=
  [s.getReg 7 - 1#8, s.getReg 7 - 2#8, s.getReg 7 - 3#8, s.getReg 7 - 4#8, s.getReg 7 - 5#8, s.getReg 7 - 6#8,
    s.getReg 7 - 7#8, s.getReg 7 - 8#8, s.getReg 7 - 9#8]

end Sys2Proof.Machine
end

