-- ==== Sys2Proof/Certificates/Slice0/Obligations.lean ====
section
/-! DEFINITION. Certificates/Slice0/Obligations.lean: the statements for the provers, from the numbered rules of spec/. Each
docstring names the rule or the spec's own decision (D<n>) it formalises, and a log entry where the model chose. -/

open Sys2Proof Sys2Proof.Machine

/-- ADD (R111): x[a] becomes (x[a] + x[b]) mod 256; and its encoding, operand check and frame. The opcode byte is OPCODE_MAP's (R75, D4). -/
def Obligations.AddGivesSumMod256 : Prop :=
  EncodedRR Instr.add 0xA8#8 ∧ ChecksRR Instr.add ∧
  ∀ (i j : Fin 8) (s : State),
    PutsRegister (.add (regByte i) (regByte j)) s i (((s.getReg i).toNat + (s.getReg j).toNat) % 256) 3

/-- SUB (R112): x[a] becomes (x[a] - x[b]) mod 256; and its encoding, operand check and frame. The opcode byte is OPCODE_MAP's (R75, D4). -/
def Obligations.SubGivesDifferenceMod256 : Prop :=
  EncodedRR Instr.sub 0xA9#8 ∧ ChecksRR Instr.sub ∧
  ∀ (i j : Fin 8) (s : State),
    PutsRegister (.sub (regByte i) (regByte j)) s i (((s.getReg i).toNat + 256 - (s.getReg j).toNat) % 256) 3

/-- MUL (R113): x[a] becomes (x[a] * x[b]) mod 256; and its encoding, operand check and frame. The opcode byte is OPCODE_MAP's (R75, D4). -/
def Obligations.MulGivesLowByteOfProduct : Prop :=
  EncodedRR Instr.mul 0xAA#8 ∧ ChecksRR Instr.mul ∧
  ∀ (i j : Fin 8) (s : State),
    PutsRegister (.mul (regByte i) (regByte j)) s i (((s.getReg i).toNat * (s.getReg j).toNat) % 256) 3

/-- DIV: x[a] becomes x[a] div x[b], or DivisionByZero; unsigned floor division is the spec's own decision D18. The opcode byte is the spec's default OPCODE_MAP (D4; log entry 3). -/
def Obligations.DivGivesUnsignedQuotient : Prop :=
  EncodedRR Instr.div 0xAB#8 ∧ ChecksRR Instr.div ∧
  ∀ (i j : Fin 8) (s : State),
    (s.getReg j ≠ 0#8 → PutsRegister (.div (regByte i) (regByte j)) s i ((s.getReg i).toNat / (s.getReg j).toNat) 3) ∧
    (s.getReg j = 0#8 → Raises (.div (regByte i) (regByte j)) s (.divisionByZero .div))

/-- MOD: x[a] becomes x[a] mod x[b], or DivisionByZero; unsigned floor division is the spec's own decision D18. The opcode byte is the spec's default OPCODE_MAP (D4; log entry 3). -/
def Obligations.ModGivesUnsignedRemainder : Prop :=
  EncodedRR Instr.mod 0xAC#8 ∧ ChecksRR Instr.mod ∧
  ∀ (i j : Fin 8) (s : State),
    (s.getReg j ≠ 0#8 → PutsRegister (.mod (regByte i) (regByte j)) s i ((s.getReg i).toNat % (s.getReg j).toNat) 3) ∧
    (s.getReg j = 0#8 → Raises (.mod (regByte i) (regByte j)) s (.divisionByZero .mod))

/-- INC (R116): x[a] becomes (x[a] + 1) mod 256; and its encoding, operand check and frame. The opcode byte is OPCODE_MAP's (R75, D4). -/
def Obligations.IncAddsOneMod256 : Prop :=
  EncodedR Instr.inc 0x78#8 ∧ ChecksR Instr.inc ∧
  ∀ (i : Fin 8) (s : State), PutsRegister (.inc (regByte i)) s i (((s.getReg i).toNat + 1) % 256) 2

/-- DEC (R117): x[a] becomes (x[a] - 1) mod 256; and its encoding, operand check and frame. The opcode byte is OPCODE_MAP's (R75, D4). -/
def Obligations.DecSubtractsOneMod256 : Prop :=
  EncodedR Instr.dec 0x79#8 ∧ ChecksR Instr.dec ∧
  ∀ (i : Fin 8) (s : State), PutsRegister (.dec (regByte i)) s i (((s.getReg i).toNat + 255) % 256) 2

/-- AND (R118): x[a] becomes x[a] & x[b]; and its encoding, operand check and frame. The opcode byte is OPCODE_MAP's (R75, D4). -/
def Obligations.AndIsBitwise : Prop :=
  EncodedRR Instr.and 0xB3#8 ∧ ChecksRR Instr.and ∧
  ∀ (i j : Fin 8) (s : State),
    PutsRegister (.and (regByte i) (regByte j)) s i ((s.getReg i).toNat &&& (s.getReg j).toNat) 3

/-- OR (R119): x[a] becomes x[a] | x[b]; and its encoding, operand check and frame. The opcode byte is OPCODE_MAP's (R75, D4). -/
def Obligations.OrIsBitwise : Prop :=
  EncodedRR Instr.or 0xB1#8 ∧ ChecksRR Instr.or ∧
  ∀ (i j : Fin 8) (s : State),
    PutsRegister (.or (regByte i) (regByte j)) s i ((s.getReg i).toNat ||| (s.getReg j).toNat) 3

/-- XOR (R120): x[a] becomes x[a] ^ x[b]; and its encoding, operand check and frame. The opcode byte is OPCODE_MAP's (R75, D4). -/
def Obligations.XorIsBitwise : Prop :=
  EncodedRR Instr.xor 0xB2#8 ∧ ChecksRR Instr.xor ∧
  ∀ (i j : Fin 8) (s : State),
    PutsRegister (.xor (regByte i) (regByte j)) s i ((s.getReg i).toNat ^^^ (s.getReg j).toNat) 3

/-- NOT (R121): x[a] becomes 255 - x[a]; and its encoding, operand check and frame. The opcode byte is OPCODE_MAP's (R75, D4). -/
def Obligations.NotComplementsEightBits : Prop :=
  EncodedR Instr.not 0x70#8 ∧ ChecksR Instr.not ∧
  ∀ (i : Fin 8) (s : State), PutsRegister (.not (regByte i)) s i (255 - (s.getReg i).toNat) 2

/-- CMP: the three flags of the unsigned comparison; bits 7:3 of FL kept is the spec's own decision D7. The opcode byte is the spec's default OPCODE_MAP (D4; log entry 3). -/
def Obligations.CmpSetsThreeFlags : Prop :=
  EncodedRR Instr.cmp 0xA0#8 ∧ ChecksRR Instr.cmp ∧
  ∀ (i j : Fin 8) (s : State), ∃ t, exec (.cmp (regByte i) (regByte j)) s = .next t ∧
    t.fl.getLsbD 0 = decide ((s.getReg i).toNat = (s.getReg j).toNat) ∧
    t.fl.getLsbD 1 = decide ((s.getReg i).toNat > (s.getReg j).toNat) ∧
    t.fl.getLsbD 2 = decide ((s.getReg i).toNat < (s.getReg j).toNat) ∧
    (∀ k, 3 ≤ k → t.fl.getLsbD k = s.fl.getLsbD k) ∧ PcPlus 3 s t ∧
    KeepsRegsBut [] s t ∧ KeepsControl s t ∧ t.out = s.out ∧ KeepsMemBut [] s t

/-- LDI (R130): the immediate, unchecked, into the register; `LDI R5,v` can enable an interrupt for the very next step. The opcode byte is OPCODE_MAP's (R75, D4). -/
def Obligations.LdiLoadsImmediate : Prop :=
  EncodedRR Instr.ldi 0x99#8 ∧
  (∀ a imm s, 8 ≤ a.toNat → Raises (.ldi a imm) s (.invalidRegister a)) ∧
  (∀ (i : Fin 8) (imm : Byte) (s : State), PutsRegister (.ldi (regByte i) imm) s i imm.toNat 3) ∧
  ∀ (imm : Byte) (s : State), s.run = .running → s.ie = true → s.is &&& imm ≠ 0#8 →
    ∃ t k, exec (.ldi (regByte 5) imm) s = .next t ∧ TakesLine t k ∧ (s.is &&& imm).getLsbD k.val = true

/-- LD: register indirect load; the direction is the spec's own decision D16. The opcode byte is the spec's default OPCODE_MAP (D4; log entry 3). -/
def Obligations.LdReadsTheByteAtRegB : Prop :=
  EncodedRR Instr.ld 0x98#8 ∧ ChecksRR Instr.ld ∧
  ∀ (i j : Fin 8) (s : State),
    PutsRegister (.ld (regByte i) (regByte j)) s i (s.readMem (s.getReg j)).toNat 3

/-- ST: register indirect store; the direction is the spec's own decision D16. The opcode byte is the spec's default OPCODE_MAP (D4; log entry 3). -/
def Obligations.StWritesRegBAtRegA : Prop :=
  EncodedRR Instr.st 0x9A#8 ∧ ChecksRR Instr.st ∧
  ∀ (i j : Fin 8) (s : State), ∃ t, exec (.st (regByte i) (regByte j)) s = .next t ∧
    t.readMem (s.getReg i) = s.getReg j ∧ KeepsMemBut [s.getReg i] s t ∧ PcPlus 3 s t ∧
    KeepsRegsBut [] s t ∧ t.fl = s.fl ∧ KeepsControl s t ∧ t.out = s.out

/-- PUSH: decrement, then write; that PUSH R7 stores the old SP is the spec's own decision D11. The opcode byte is the spec's default OPCODE_MAP (D4; log entry 3). -/
def Obligations.PushStoresBelowSp : Prop :=
  EncodedR Instr.push 0x4D#8 ∧ ChecksR Instr.push ∧
  ∀ (i : Fin 8) (s : State), ∃ t, exec (.push (regByte i)) s = .next t ∧
    (t.getReg 7).toNat = ((s.getReg 7).toNat + 255) % 256 ∧ KeepsRegsBut [7] s t ∧
    t.readMem (s.getReg 7 - 1#8) = s.getReg i ∧ KeepsMemBut [s.getReg 7 - 1#8] s t ∧ PcPlus 2 s t ∧
    t.fl = s.fl ∧ KeepsControl s t ∧ t.out = s.out

/-- POP: read, then increment, then write the register; POP R7 is the spec's own decision D11. The opcode byte is the spec's default OPCODE_MAP (D4; log entry 3). -/
def Obligations.PopLoadsTopOfStack : Prop :=
  EncodedR Instr.pop 0x4C#8 ∧ ChecksR Instr.pop ∧
  ∀ (i : Fin 8) (s : State), ∃ t, exec (.pop (regByte i)) s = .next t ∧
    t.getReg i = s.readMem (s.getReg 7) ∧
    (i ≠ 7 → (t.getReg 7).toNat = ((s.getReg 7).toNat + 1) % 256) ∧ KeepsRegsBut [i, 7] s t ∧
    KeepsMemBut [] s t ∧ PcPlus 2 s t ∧ t.fl = s.fl ∧ KeepsControl s t ∧ t.out = s.out

/-- JMP; its target is the spec's own decision D17. The opcode byte is the spec's default OPCODE_MAP (D4; log entry 3). -/
def Obligations.JmpGoesToRegA : Prop :=
  EncodedR Instr.jmp 0x50#8 ∧ ChecksR Instr.jmp ∧
  ∀ (i : Fin 8) (s : State), OnlySetsPc (.jmp (regByte i)) s (s.getReg i).toNat

/-- JEQ: taken when EQ is set; the target is the spec's own decision D17, the operand check of a jump not taken D13. The opcode byte is the spec's default OPCODE_MAP (D4; log entry 3). -/
def Obligations.JeqJumpsWhenEqual : Prop :=
  EncodedR Instr.jeq 0x51#8 ∧ ChecksR Instr.jeq ∧
  ∀ (i : Fin 8) (s : State),
    (s.fl.getLsbD 0 = true → OnlySetsPc (.jeq (regByte i)) s (s.getReg i).toNat) ∧
    (s.fl.getLsbD 0 = false → OnlySetsPc (.jeq (regByte i)) s ((s.pc.toNat + 2) % 256))

/-- JNE: taken when EQ is clear; the target is the spec's own decision D17, the operand check of a jump not taken D13. The opcode byte is the spec's default OPCODE_MAP (D4; log entry 3). -/
def Obligations.JneJumpsWhenNotEqual : Prop :=
  EncodedR Instr.jne 0x52#8 ∧ ChecksR Instr.jne ∧
  ∀ (i : Fin 8) (s : State),
    (s.fl.getLsbD 0 = false → OnlySetsPc (.jne (regByte i)) s (s.getReg i).toNat) ∧
    (s.fl.getLsbD 0 = true → OnlySetsPc (.jne (regByte i)) s ((s.pc.toNat + 2) % 256))

/-- JGT: taken when GT is set; the target is the spec's own decision D17, the operand check of a jump not taken D13. The opcode byte is the spec's default OPCODE_MAP (D4; log entry 3). -/
def Obligations.JgtJumpsWhenGreater : Prop :=
  EncodedR Instr.jgt 0x54#8 ∧ ChecksR Instr.jgt ∧
  ∀ (i : Fin 8) (s : State),
    (s.fl.getLsbD 1 = true → OnlySetsPc (.jgt (regByte i)) s (s.getReg i).toNat) ∧
    (s.fl.getLsbD 1 = false → OnlySetsPc (.jgt (regByte i)) s ((s.pc.toNat + 2) % 256))

/-- JLT: taken when LT is set; the target is the spec's own decision D17, the operand check of a jump not taken D13. The opcode byte is the spec's default OPCODE_MAP (D4; log entry 3). -/
def Obligations.JltJumpsWhenLess : Prop :=
  EncodedR Instr.jlt 0x53#8 ∧ ChecksR Instr.jlt ∧
  ∀ (i : Fin 8) (s : State),
    (s.fl.getLsbD 2 = true → OnlySetsPc (.jlt (regByte i)) s (s.getReg i).toNat) ∧
    (s.fl.getLsbD 2 = false → OnlySetsPc (.jlt (regByte i)) s ((s.pc.toNat + 2) % 256))

/-- CALL: the return address is PC + 2; that CALL R7 jumps to the old SP is the spec's own decision D11. The opcode byte is the spec's default OPCODE_MAP (D4; log entry 3). -/
def Obligations.CallPushesPcPlusTwo : Prop :=
  EncodedR Instr.call 0x48#8 ∧ ChecksR Instr.call ∧
  ∀ (i : Fin 8) (s : State), ∃ t, exec (.call (regByte i)) s = .next t ∧ t.pc = s.getReg i ∧
    (t.getReg 7).toNat = ((s.getReg 7).toNat + 255) % 256 ∧ KeepsRegsBut [7] s t ∧
    (t.readMem (s.getReg 7 - 1#8)).toNat = (s.pc.toNat + 2) % 256 ∧ KeepsMemBut [s.getReg 7 - 1#8] s t ∧
    t.fl = s.fl ∧ KeepsControl s t ∧ t.out = s.out

/-- RET; that it pops unconditionally is the spec's own decision D27. The opcode byte is the spec's default OPCODE_MAP (D4; log entry 3). -/
def Obligations.RetPopsThePc : Prop :=
  EncodedZ .ret 0x09#8 ∧
  ∀ s : State, ∃ t, exec .ret s = .next t ∧ t.pc = s.readMem (s.getReg 7) ∧
    (t.getReg 7).toNat = ((s.getReg 7).toNat + 1) % 256 ∧ KeepsRegsBut [7] s t ∧
    KeepsMemBut [] s t ∧ t.fl = s.fl ∧ KeepsControl s t ∧ t.out = s.out

/-- NOP; its meaning is the spec's own decision D17. The opcode byte is the spec's default OPCODE_MAP (D4; log entry 3). -/
def Obligations.NopOnlyAdvances : Prop :=
  EncodedZ .nop 0x00#8 ∧ ∀ s : State, OnlySetsPc .nop s ((s.pc.toNat + 1) % 256)

/-- HLT; that the PC advances past it is the spec's own decision D12. The opcode byte is the spec's default OPCODE_MAP (D4; log entry 3). -/
def Obligations.HltHaltsPastItself : Prop :=
  EncodedZ .hlt 0x01#8 ∧
  ∀ s : State, ∃ t, exec .hlt s = .next t ∧ t.run = .halted .hlt ∧ PcPlus 1 s t ∧
    KeepsRegsBut [] s t ∧ t.fl = s.fl ∧ t.ir = s.ir ∧ t.is = s.is ∧ t.ie = s.ie ∧ t.out = s.out ∧ KeepsMemBut [] s t

/-- PRN; that OUT is a list of events is the spec's own decision D24. The opcode byte is the spec's default OPCODE_MAP (D4; log entry 3). -/
def Obligations.PrnEmitsNum : Prop :=
  EncodedR Instr.prn 0x43#8 ∧ ChecksR Instr.prn ∧
  ∀ (i : Fin 8) (s : State), OnlyEmits (.prn (regByte i)) s (.num (s.getReg i)) 2

/-- PRA; that OUT is a list of events is the spec's own decision D24. The opcode byte is the spec's default OPCODE_MAP (D4; log entry 3). -/
def Obligations.PraEmitsChr : Prop :=
  EncodedR Instr.pra 0x42#8 ∧ ChecksR Instr.pra ∧
  ∀ (i : Fin 8) (s : State), OnlyEmits (.pra (regByte i)) s (.chr (s.getReg i)) 2

/-- INT in range; the derivation of the bit is the spec's own decision D9. The opcode byte is the spec's default OPCODE_MAP (D4; log entry 3). -/
def Obligations.IntSetsTheNamedLine : Prop :=
  EncodedR Instr.int 0x4A#8 ∧ ChecksR Instr.int ∧
  ∀ (i : Fin 8) (s : State), (s.getReg i).toNat ≤ 7 → ∃ t, exec (.int (regByte i)) s = .next t ∧
    (∀ k : Fin 8, t.is.getLsbD k.val = (s.is.getLsbD k.val || (k.val == (s.getReg i).toNat))) ∧ PcPlus 2 s t ∧
    KeepsRegsBut [] s t ∧ t.fl = s.fl ∧ t.ir = s.ir ∧ t.ie = s.ie ∧ t.run = s.run ∧ t.out = s.out ∧ KeepsMemBut [] s t

/-- INT out of range: the model's choice of log entry 2 (a free value); the source defines nothing (U3). -/
def Obligations.IntOutOfRangeOnlyAddsToIs : Prop :=
  ∀ (i : Fin 8) (s : State), 8 ≤ (s.getReg i).toNat → ∃ t, exec (.int (regByte i)) s = .next t ∧
    t.is = s.is ||| Config.intOutOfRangeBits (s.getReg i) ∧
    (∀ k, s.is.getLsbD k = true → t.is.getLsbD k = true) ∧ PcPlus 2 s t ∧
    KeepsRegsBut [] s t ∧ t.fl = s.fl ∧ t.ir = s.ir ∧ t.ie = s.ie ∧ t.run = s.run ∧ t.out = s.out ∧ KeepsMemBut [] s t

/-- IRET; FL's 8 bits and the missing check are the spec's own decisions D7 and D27. The opcode byte is the spec's default OPCODE_MAP (D4; log entry 3). -/
def Obligations.IretRestoresTheFrame : Prop :=
  EncodedZ .iret 0x0B#8 ∧
  ∀ s : State, ∃ t, exec .iret s = .next t ∧
    t.getReg 6 = s.readMem (s.getReg 7) ∧ t.getReg 5 = s.readMem (s.getReg 7 + 1#8) ∧
    t.getReg 4 = s.readMem (s.getReg 7 + 2#8) ∧ t.getReg 3 = s.readMem (s.getReg 7 + 3#8) ∧
    t.getReg 2 = s.readMem (s.getReg 7 + 4#8) ∧ t.getReg 1 = s.readMem (s.getReg 7 + 5#8) ∧
    t.getReg 0 = s.readMem (s.getReg 7 + 6#8) ∧ t.fl = s.readMem (s.getReg 7 + 7#8) ∧
    t.pc = s.readMem (s.getReg 7 + 8#8) ∧ (t.getReg 7).toNat = ((s.getReg 7).toNat + 9) % 256 ∧ t.ie = true ∧
    t.ir = s.ir ∧ t.is = s.is ∧ t.run = s.run ∧ t.out = s.out ∧ KeepsMemBut [] s t

/-- Equal contents are equal data; the model's own representation of the 256 bytes. -/
def Obligations.CanonicalMemoriesThatReadAlikeAreEqual : Prop :=
  ∀ m m' : Memory, m.wf → m'.wf → (∀ a, m.read a = m'.read a) → m = m'

/-- The source's property A4; for PUSH R7 it rests on the spec's own decision D11 (log entry 5). -/
def Obligations.PushThenPopRestores : Prop :=
  ∀ (s : State) (i j : Fin 8), j ≠ 7 → ∃ t u, exec (.push (regByte i)) s = .next t ∧ exec (.pop (regByte j)) t = .next u ∧
    u.getReg j = s.getReg i ∧ KeepsRegsBut [j] s u ∧ KeepsMemBut [s.getReg 7 - 1#8] s u ∧ PcPlus 4 s u

/-- The source's property A5, for any balanced subroutine. -/
def Obligations.CallThenRetReturns : Prop :=
  ∀ (s : State) (i : Fin 8), ∃ t, exec (.call (regByte i)) s = .next t ∧ KeepsRegsBut [7] s t ∧
    ∀ w : State, w.getReg 7 = t.getReg 7 → w.readMem (w.getReg 7) = t.readMem (t.getReg 7) →
      ∃ u, exec .ret w = .next u ∧ u.pc.toNat = (s.pc.toNat + 2) % 256 ∧ u.getReg 7 = s.getReg 7 ∧ KeepsRegsBut [7] w u

/-- The step of R90 around exec: the fetch's write of IR, nothing else. -/
def Obligations.StepRunsTheDecodedInstruction : Prop :=
  ∀ (s : State) (i : Instr), RunsInstruction s → FetchesInstr s i →
    step s = exec i { s with ir := s.readMem s.pc }

/-- UnknownInstruction (R202). -/
def Obligations.UnknownOpcodeHalts : Prop :=
  ∀ s : State, RunsInstruction s → (∀ x y i, decode (s.readMem s.pc) x y ≠ .ok i) →
    step s = .next { s with
      ir := s.readMem s.pc
      run := .halted (.unknownInstruction (s.readMem s.pc) s.pc) }

/-- The illegal opcodes, by the spec's default OPCODE_MAP (D4; log entry 3). -/
def Obligations.IllegalOpcodesAreTheOther226 : Prop :=
  (∀ op x y, (decode op x y = .error (.unknownInstruction op)) ↔ op ∉ opcodeValues) ∧
  (∀ op x y, 0xC0#8 ≤ op → decode op x y = .error (.unknownInstruction op)) ∧
  ((List.range 256).filter fun n => BitVec.ofNat 8 n ∉ opcodeValues).length = 226

/-- R91's reading of 'no further steps execute' (D25). -/
def Obligations.HaltedStepDoesNothing : Prop :=
  ∀ (s : State) (c : HaltCause), s.run = .halted c → step s = .next s

/-- The interrupt check (R206); that a halted engine's step answers the same state is the spec's own decision D25 (log entry 6). -/
def Obligations.InterruptTakenExactlyWhenArmedAndPending : Prop :=
  ∀ s : State,
    (s.run = .running → s.ie = true → s.is &&& s.getReg 5 ≠ 0#8 →
      ∃ i : Fin 8, (s.is &&& s.getReg 5).getLsbD i.val = true ∧ step s = .next (s.interruptEntry i)) ∧
    (s.run = .running → (s.ie = false ∨ s.is &&& s.getReg 5 = 0#8) → step s = s.instructionStep) ∧
    (∀ c, s.run = .halted c → step s = .next s)

/-- Interrupt entry; priority, vector base and the order of the vector read are the spec's own decisions D8, D3 and D26. -/
def Obligations.InterruptEntrySavesNineBytes : Prop :=
  ∀ (s : State) (i : Fin 8), s.run = .running → s.ie = true →
    (s.is &&& s.getReg 5).getLsbD i.val = true → (∀ j : Fin 8, j < i → (s.is &&& s.getReg 5).getLsbD j.val = false) →
    ∃ t, step s = .next t ∧
      (∀ k : Fin 8, t.is.getLsbD k.val = (s.is.getLsbD k.val && (k != i))) ∧
      (t.getReg 7).toNat = ((s.getReg 7).toNat + 247) % 256 ∧ KeepsRegsBut [7] s t ∧
      t.readMem (s.getReg 7 - 1#8) = s.pc ∧ t.readMem (s.getReg 7 - 2#8) = s.fl ∧
      t.readMem (s.getReg 7 - 3#8) = s.getReg 0 ∧ t.readMem (s.getReg 7 - 4#8) = s.getReg 1 ∧
      t.readMem (s.getReg 7 - 5#8) = s.getReg 2 ∧ t.readMem (s.getReg 7 - 6#8) = s.getReg 3 ∧
      t.readMem (s.getReg 7 - 7#8) = s.getReg 4 ∧ t.readMem (s.getReg 7 - 8#8) = s.getReg 5 ∧
      t.readMem (s.getReg 7 - 9#8) = s.getReg 6 ∧ KeepsMemBut (frameAddresses s) s t ∧
      t.pc = t.readMem (0xF8#8 + BitVec.ofNat 8 i.val) ∧ t.ie = false ∧
      t.fl = s.fl ∧ t.ir = s.ir ∧ t.run = s.run ∧ t.out = s.out

/-- Entry and IRET are inverse around any handler that leaves SP, the frame and IE as entry left them (the spec derives it; the source's scenario A8 is the case w = t). -/
def Obligations.InterruptIsTransparentToTheProgram : Prop :=
  ∀ (s t w : State) (i : Fin 8), TakesLine s i → step s = .next t →
    w.run = .running → w.ie = false → w.getReg 7 = t.getReg 7 →
    (∀ a ∈ frameAddresses s, w.readMem a = t.readMem a) → w.readMem w.pc = 0x0B#8 →
    ∃ u, step w = .next u ∧ KeepsRegsBut [] s u ∧ u.fl = s.fl ∧ u.pc = s.pc ∧ u.ie = true ∧
      u.is = w.is ∧ u.out = w.out ∧ u.run = w.run ∧ KeepsMemBut [] w u

/-- The two readings of conflict C1 give the same sequence of state changes (the spec's own decision D6). -/
def Obligations.FusedStepIsTheSameRun : Prop :=
  ∀ s : State,
    (∀ i t, TakesLine s i → step s = .next t → stepWith true s = step t) ∧
    ((∀ i, ¬ TakesLine s i) → stepWith true s = step s)

/-- The invariant of Safety.lean, over all instructions, the interrupt entry and the halted step. The canonical
form of Memory is the model's own choice (log entry 12, with the unlisted byte of log entry 1); the opcode bytes are D4's (log entry 3). -/
def Obligations.EveryStepKeepsTheInvariant : Prop :=
  ∀ s t : State, Inv s → step s = .next t → Inv t

/-- The base of the invariant; the canonical form of Memory is the model's own choice (log entries 12 and 1). -/
def Obligations.ResetMeetsTheInvariant : Prop :=
  Inv State.reset

/-- R200's errors are next states; INT above 7 runs by log entry 2. -/
def Obligations.EveryStepAnswersANextState : Prop :=
  (∀ s : State, ∃ t, step s = .next t) ∧ ∀ (i : Instr) (s : State), ∃ t, exec i s = .next t

/-- Atomicity of a failing step (R100). -/
def Obligations.FailingStepCommitsOnlyIrAndRun : Prop :=
  ∀ (s t : State) (c : HaltCause), s.run = .running → step s = .next t → t.run = .halted c → c ≠ .hlt →
    t = { s with ir := s.readMem s.pc, run := .halted c }

/-- The order of checks and what is checked are the spec's own decisions D13 and D14. -/
def Obligations.FirstIllegalOperandIsReported : Prop :=
  ∀ (i : Instr) (s : State),
    (¬ WellFormed i → ∃ r, i.registerOperands.find? (fun r => 8 ≤ r.toNat) = some r ∧ Raises i s (.invalidRegister r)) ∧
    (WellFormed i → ∀ t r, exec i s = .next t → t.run = .halted (.invalidRegister r) → s.run = .halted (.invalidRegister r))

/-- The interrupt-enable bit (R30), a rule about the whole machine. -/
def Obligations.OnlyEntryMasksAndOnlyIretArms : Prop :=
  (∀ s t : State, step s = .next t →
    (s.ie = true → t.ie = false → ∃ i, TakesLine s i) ∧
    (s.ie = false → t.ie = true → RunsInstruction s ∧ FetchesInstr s .iret) ∧
    ((∃ i, TakesLine s i) → t.ie = false) ∧ (RunsInstruction s → FetchesInstr s .iret → t.ie = true)) ∧
  State.reset.ie = true ∧ (∀ s : State, s.hostReset.ie = true) ∧
  (∀ (i : Instr) (s t : State) (b : Bool), i ≠ .iret → exec i s = .next t →
    exec i { s with ie := b } = .next { t with ie := b }) ∧
  (∀ (s : State) (b : Bool), exec .iret { s with ie := b } = exec .iret s) ∧
  ∀ (s : State) (i : Fin 8), (s.getReg 5).getLsbD i.val = false → ¬ TakesLine s i

/-- Writers of FL, a rule about the whole machine. -/
def Obligations.OnlyCmpAndIretChangeFl : Prop :=
  ∀ s t : State, step s = .next t → t.fl ≠ s.fl →
    RunsInstruction s ∧ (FetchesInstr s .iret ∨ ∃ i j, FetchesInstr s (.cmp (regByte i) (regByte j)))

/-- Writers of IS, a rule about the whole machine; the free value is log entry 2. -/
def Obligations.PendingBitsRiseByIntAndFallByEntry : Prop :=
  ∀ (s t : State) (k : Fin 8), step s = .next t →
    (s.is.getLsbD k.val = true → t.is.getLsbD k.val = false → TakesLine s k) ∧
    (s.is.getLsbD k.val = false → t.is.getLsbD k.val = true →
      RunsInstruction s ∧ ∃ i, FetchesInstr s (.int (regByte i)) ∧ ((s.getReg i).toNat = k.val ∨ 8 ≤ (s.getReg i).toNat))

/-- Writers of Memory, a rule about the whole machine (R54's table of accesses). -/
def Obligations.MemoryIsWrittenOnlyByFourAgents : Prop :=
  ∀ (s t : State) (a : Byte), step s = .next t → t.readMem a ≠ s.readMem a →
    ((∃ i, TakesLine s i) ∧ a ∈ frameAddresses s) ∨
    (RunsInstruction s ∧
      ((∃ i j, FetchesInstr s (.st (regByte i) (regByte j)) ∧ a = s.getReg i) ∨
       ((∃ i, FetchesInstr s (.push (regByte i)) ∨ FetchesInstr s (.call (regByte i))) ∧ a = s.getReg 7 - 1#8)))

/-- The instruction register (R26). -/
def Obligations.IrIsWrittenByFetchAloneAndNeverRead : Prop :=
  (∀ s t : State, step s = .next t →
    (RunsInstruction s → t.ir = s.readMem s.pc) ∧ ((∃ i, TakesLine s i) → t.ir = s.ir) ∧
    (∀ c, s.run = .halted c → t.ir = s.ir)) ∧
  (∀ (i : Instr) (s t : State) (v : Byte), exec i s = .next t → exec i { s with ir := v } = .next { t with ir := v }) ∧
  (∀ op : Byte, operandCount op = (op >>> 6).toNat) ∧ ∀ s : State, s.readAccessor .ir = s.ir

/-- OUT is a sink the core does not read. -/
def Obligations.OutputIsWriteOnly : Prop :=
  ∀ (s t : State) (o : List OutEvent), step s = .next t →
    step { s with out := o ++ s.out } = .next { t with out := o ++ t.out }

/-- Writers of OUT, a rule about the whole machine. -/
def Obligations.OutGrowsOnlyByPrnAndPra : Prop :=
  ∀ s t : State, step s = .next t →
    t.out = s.out ∨
    (RunsInstruction s ∧ ∃ i,
      (FetchesInstr s (.prn (regByte i)) ∧ t.out = s.out ++ [.num (s.getReg i)]) ∨
      (FetchesInstr s (.pra (regByte i)) ∧ t.out = s.out ++ [.chr (s.getReg i)]))

/-- Decode and encode agree, through the fetch; the opcode values are the spec's default OPCODE_MAP (D4; log entry 3). -/
def Obligations.EncodedInstructionIsFetchedAndRun : Prop :=
  ∀ (i : Instr) (s : State),
    (∀ k (h : k < (encode i).length), s.readMem (s.pc + BitVec.ofNat 8 k) = (encode i)[k]) →
    s.decodeNext = .ok i ∧ (encode i).length = operandCount (s.readMem s.pc) + 1 ∧
    (RunsInstruction s → step s = exec i { s with ir := opcodeOf i })

/-- The other direction of the round trip; the opcode values are the spec's default OPCODE_MAP (D4; log entry 3). -/
def Obligations.DecodedBytesAreTheEncoding : Prop :=
  ∀ (op a b : Byte) (i : Instr), decode op a b = .ok i → encode i = [op, a, b].take (operandCount op + 1)

/-- A sanity statement on fixed words (opcode values: D4; log entry 3). -/
def Obligations.SampleWordsDecode : Prop :=
  decode 0x99#8 0x00#8 0x08#8 = .ok (.ldi 0#8 8#8) ∧ decode 0x99#8 0x01#8 0x09#8 = .ok (.ldi 1#8 9#8) ∧
  decode 0xAA#8 0x00#8 0x01#8 = .ok (.mul 0#8 1#8) ∧ decode 0x43#8 0x00#8 0x00#8 = .ok (.prn 0#8) ∧
  decode 0x01#8 0x00#8 0x00#8 = .ok .hlt ∧ decode 0xA0#8 0x00#8 0x01#8 = .ok (.cmp 0#8 1#8) ∧
  decode 0x9A#8 0x04#8 0x00#8 = .ok (.st 4#8 0#8) ∧ decode 0x4D#8 0x01#8 0x00#8 = .ok (.push 1#8) ∧
  decode 0x52#8 0x03#8 0x00#8 = .ok (.jne 3#8) ∧ decode 0x48#8 0x01#8 0x00#8 = .ok (.call 1#8) ∧
  decode 0x4A#8 0x00#8 0x00#8 = .ok (.int 0#8) ∧ decode 0x0B#8 0x00#8 0x00#8 = .ok .iret

/-- The reset values; 0xF4, IS, RUN, Memory and OUT are the spec's own decisions D2 and D10. -/
def Obligations.ResetLeavesTheTableOfR34 : Prop :=
  (∀ s : State, (∀ k : Fin 8, k ≠ 7 → s.hostReset.getReg k = 0#8) ∧ s.hostReset.getReg 7 = 0xF4#8 ∧
    s.hostReset.pc = 0#8 ∧ s.hostReset.ir = 0#8 ∧ s.hostReset.fl = 0#8 ∧ s.hostReset.is = 0#8 ∧
    s.hostReset.ie = true ∧ s.hostReset.run = .running ∧ s.hostReset.takenLine = none ∧
    s.hostReset.mem = s.mem ∧ s.hostReset.out = s.out) ∧
  State.reset.hostReset = State.reset

/-- AddressOutOfRange (R67, D1). That `configure` faults on a smaller Memory is the model's own choice (log entry 11), the empty OUT of
a new engine too (log entry 8). -/
def Obligations.AddressOutOfRangeIsConfigurationOnly : Prop :=
  (∀ (n : Nat) (m : Memory), n < 256 → configure n m = .fault (.addressOutOfRange n)) ∧
  (∀ m : Memory, configure 256 m = .next { State.reset with mem := m }) ∧
  ∀ (s : State) (f : Fault), step s ≠ .fault f

/-- The host's moves between steps; what is refused is the spec's own decision D23, what an accessor writes is log entry 11. -/
def Obligations.LoadByteWritesMemoryBeforeTheFirstStepOnly : Prop :=
  (∀ (s : State) (a v : Byte), ∃ t, Session.apply ⟨s, false⟩ (.loadByte a v) = .next ⟨t, false⟩ ∧
    t.readMem a = v ∧ KeepsMemBut [a] s t ∧ t = { s with mem := t.mem }) ∧
  (∀ (s t : State) (a v : Byte) (b : Bool), step s = .next t →
    Session.apply ⟨s, b⟩ .step = .next ⟨t, true⟩ ∧ Session.apply ⟨t, true⟩ (.loadByte a v) = .refused .loadAfterStart ∧
    Session.apply ⟨t, true⟩ .reset = .next ⟨t.hostReset, false⟩) ∧
  (∀ (s : State) (w : Accessor) (v : Byte), Session.apply ⟨s, true⟩ (.writeAccessor w v) = .refused .hostWrite) ∧
  ∀ (s : State) (w : Accessor) (v : Byte), ∃ t, Session.apply ⟨s, false⟩ (.writeAccessor w v) = .next ⟨t, false⟩ ∧
    t.readAccessor w = v ∧ (∀ u : Accessor, u.home ≠ w.home → t.readAccessor u = s.readAccessor u) ∧
    t.readAccessor .im = t.readAccessor (.gpr 5) ∧
    t.mem = s.mem ∧ t.out = s.out ∧ t.ie = s.ie ∧ t.run = s.run
end

