-- ==== Sys2Proof/Laws/Decode.lean ====
section
/-! SUPPORT. Laws/Decode.lean: the 30 rows of the dispatch table as one inversion lemma (30_encoding.md R75, R94). -/

namespace Sys2Proof

/-- What the look-up can answer: one of the 30 instructions at its own opcode byte, or an unknown opcode. -/
theorem decode_cases (op a b : Byte) :
    (∃ i, decode op a b = .ok i ∧ op = opcodeOf i) ∨ decode op a b = .error (.unknownInstruction op) := by
  unfold decode
  split <;> first | exact .inl ⟨_, rfl, rfl⟩ | exact .inr rfl

theorem decode_ok_opcode {op a b : Byte} {i : Instr} (h : decode op a b = .ok i) : op = opcodeOf i := by
  rcases decode_cases op a b with ⟨j, hj, rfl⟩ | he
  · rw [hj] at h
    cases h
    rfl
  · rw [he] at h
    cases h

/-- The look-up ignores an operand byte that the opcode's format does not have (R72, R93). -/
theorem decode_operands (op a b a' b' : Byte) (ha : operandCount op = 1 ∨ operandCount op = 2 → a = a')
    (hb : operandCount op = 2 → b = b') : decode op a b = decode op a' b' := by
  have hc : operandCount op = 1 ∨ operandCount op = 2 ∨ (operandCount op ≠ 1 ∧ operandCount op ≠ 2) := by tauto
  rcases hc with h | h | ⟨h1, h2⟩
  · obtain rfl := ha (.inl h)
    unfold decode
    split <;> first | rfl | exact absurd h (by decide)
  · rw [ha (.inr h), hb h]
  · unfold decode
    split <;> first | rfl | exact absurd rfl h1 | exact absurd rfl h2

/-- What a step looks up is what the three bytes at PC, PC + 1 and PC + 2 decode to (R92, R93). -/
theorem Machine.State.decodeNext_eq (s : Machine.State) :
    s.decodeNext = decode (s.readMem s.pc) (s.readMem (s.pc + 1#8)) (s.readMem (s.pc + 2#8)) := by
  refine decode_operands _ _ _ _ _ (fun h => ?_) fun h => ?_
  · rcases h with h | h <;> simp [Machine.State.operandA, h]
  · simp [Machine.State.operandB, h]

end Sys2Proof
end

