-- ==== Sys2Proof/Laws/Operands.lean ====
section
/-! SUPPORT. Laws/Operands.lean: everything the register-operand check can do (40_dispatch.md R95, 30_encoding.md R73): a byte of
0..7 names its register, a byte of 8..255 raises InvalidRegister and nothing else happens. -/

namespace Sys2Proof.Machine

@[simp] theorem registerIndex_regByte (i : Fin 8) : registerIndex (regByte i) = some i := by
  revert i
  decide

theorem regByte_lt (i : Fin 8) : (regByte i).toNat < 8 := by
  revert i
  decide

theorem registerIndex_illegal (a : Byte) (h : 8 ≤ a.toNat) : registerIndex a = none := by
  simp [registerIndex, h]

theorem regByte_of_lt (a : Byte) (h : a.toNat < 8) : regByte ⟨a.toNat, h⟩ = a := by
  simp [regByte]

/-- A byte is the name of a register or an illegal index. -/
theorem operand_cases (a : Byte) : (∃ i, a = regByte i) ∨ 8 ≤ a.toNat := by
  rcases Nat.lt_or_ge a.toNat 8 with h | h
  · exact .inl ⟨⟨a.toNat, h⟩, (regByte_of_lt a h).symm⟩
  · exact .inr h

@[simp] theorem withReg_regByte (i : Fin 8) (s : State) (k : Fin 8 → Result) : withReg (regByte i) s k = k i := by
  simp [withReg]

theorem withReg_illegal (a : Byte) (s : State) (k : Fin 8 → Result) (h : 8 ≤ a.toNat) :
    withReg a s k = .next (s.raise (.invalidRegister a)) := by
  simp [withReg, registerIndex_illegal a h]

@[simp] theorem withRegs_regByte (i j : Fin 8) (s : State) (k : Fin 8 → Fin 8 → Result) :
    withRegs (regByte i) (regByte j) s k = k i j := by
  simp [withRegs]

theorem withRegs_illegal_first (a b : Byte) (s : State) (k : Fin 8 → Fin 8 → Result) (h : 8 ≤ a.toNat) :
    withRegs a b s k = .next (s.raise (.invalidRegister a)) :=
  withReg_illegal a s _ h

theorem withRegs_illegal_second (i : Fin 8) (b : Byte) (s : State) (k : Fin 8 → Fin 8 → Result) (h : 8 ≤ b.toNat) :
    withRegs (regByte i) b s k = .next (s.raise (.invalidRegister b)) := by
  simp [withRegs, withReg_illegal b s _ h]

/-- If a checked operand leads to a next state, it named a register, or InvalidRegister was raised. -/
theorem withReg_next {a : Byte} {s t : State} {k : Fin 8 → Result} (h : withReg a s k = .next t) :
    (∃ i, a = regByte i ∧ k i = .next t) ∨ (8 ≤ a.toNat ∧ t = s.raise (.invalidRegister a)) := by
  rcases operand_cases a with ⟨i, rfl⟩ | ha
  · exact .inl ⟨i, rfl, by simpa using h⟩
  · rw [withReg_illegal a s k ha] at h
    cases h
    exact .inr ⟨ha, rfl⟩

theorem withRegs_next {a b : Byte} {s t : State} {k : Fin 8 → Fin 8 → Result} (h : withRegs a b s k = .next t) :
    (∃ i j, a = regByte i ∧ b = regByte j ∧ k i j = .next t) ∨
      (8 ≤ a.toNat ∧ t = s.raise (.invalidRegister a)) ∨
      (a.toNat < 8 ∧ 8 ≤ b.toNat ∧ t = s.raise (.invalidRegister b)) := by
  rcases withReg_next h with ⟨i, rfl, hi⟩ | ha
  · rcases withReg_next hi with ⟨j, rfl, hj⟩ | ⟨hb, rfl⟩
    · exact .inl ⟨i, j, rfl, rfl, hj⟩
    · exact .inr (.inr ⟨regByte_lt i, hb, rfl⟩)
  · exact .inr (.inl ha)

end Sys2Proof.Machine
end

