-- ==== Sys2Proof/Laws/State.lean ====
section
/-! SUPPORT. Laws/State.lean: every field of State after every named operation, each true by rfl. The simp-normal form of a register
read is `s.x.get i`, of a byte read `s.mem.read a`. -/

namespace Sys2Proof.Machine

/-- The types of Word.lean and Machine/Ops.lean have the widths and bounds of R5. -/
theorem byte_eq : Byte = BitVec Config.xlen ∧ Byte = BitVec Config.alen := ⟨rfl, rfl⟩
theorem index_bounds : Config.nreg = 8 ∧ Config.nirq = 8 ∧ Config.memSize = 2 ^ Config.alen := ⟨rfl, rfl, rfl⟩

@[simp] theorem State.getReg_eq (s : State) (i : Fin 8) : s.getReg i = s.x.get i := rfl
@[simp] theorem State.readMem_eq (s : State) (a : Byte) : s.readMem a = s.mem.read a := rfl
@[simp] theorem State.sp_eq (s : State) : s.sp = s.x.get 7 := rfl
@[simp] theorem State.im_eq (s : State) : s.im = s.x.get 5 := rfl
@[simp] theorem State.pending_eq (s : State) : s.pending = s.is &&& s.x.get 5 := rfl
@[simp] theorem State.opcodeByte_eq (s : State) : s.opcodeByte = s.mem.read s.pc := rfl
@[simp] theorem State.pop_value (s : State) : s.pop.1 = s.mem.read (s.x.get 7) := rfl

/-- The register file: what is written is read back, and no other register changes (R20, R22). -/
@[simp] theorem Regs.get_set (x : Regs) (i j : Fin 8) (v : Byte) :
    (x.set i v).get j = if j = i then v else x.get j := by
  fin_cases i <;> fin_cases j <;> rfl

/-- Two states with equal fields are equal. -/
theorem State.ext_fields {s t : State} (hx : s.x = t.x) (hpc : s.pc = t.pc) (hir : s.ir = t.ir) (hfl : s.fl = t.fl)
    (his : s.is = t.is) (hie : s.ie = t.ie) (hrun : s.run = t.run) (hmem : s.mem = t.mem) (hout : s.out = t.out) :
    s = t := by
  cases s
  cases t
  simp_all

/-! ### setReg -/

@[simp] theorem State.setReg_x (s : State) (i : Fin 8) (v : Byte) : (s.setReg i v).x = s.x.set i v := rfl
@[simp] theorem State.setReg_pc (s : State) (i : Fin 8) (v : Byte) : (s.setReg i v).pc = s.pc := rfl
@[simp] theorem State.setReg_ir (s : State) (i : Fin 8) (v : Byte) : (s.setReg i v).ir = s.ir := rfl
@[simp] theorem State.setReg_fl (s : State) (i : Fin 8) (v : Byte) : (s.setReg i v).fl = s.fl := rfl
@[simp] theorem State.setReg_is (s : State) (i : Fin 8) (v : Byte) : (s.setReg i v).is = s.is := rfl
@[simp] theorem State.setReg_ie (s : State) (i : Fin 8) (v : Byte) : (s.setReg i v).ie = s.ie := rfl
@[simp] theorem State.setReg_run (s : State) (i : Fin 8) (v : Byte) : (s.setReg i v).run = s.run := rfl
@[simp] theorem State.setReg_mem (s : State) (i : Fin 8) (v : Byte) : (s.setReg i v).mem = s.mem := rfl
@[simp] theorem State.setReg_out (s : State) (i : Fin 8) (v : Byte) : (s.setReg i v).out = s.out := rfl

/-! ### writeMem -/

@[simp] theorem State.writeMem_x (s : State) (a v : Byte) : (s.writeMem a v).x = s.x := rfl
@[simp] theorem State.writeMem_pc (s : State) (a v : Byte) : (s.writeMem a v).pc = s.pc := rfl
@[simp] theorem State.writeMem_ir (s : State) (a v : Byte) : (s.writeMem a v).ir = s.ir := rfl
@[simp] theorem State.writeMem_fl (s : State) (a v : Byte) : (s.writeMem a v).fl = s.fl := rfl
@[simp] theorem State.writeMem_is (s : State) (a v : Byte) : (s.writeMem a v).is = s.is := rfl
@[simp] theorem State.writeMem_ie (s : State) (a v : Byte) : (s.writeMem a v).ie = s.ie := rfl
@[simp] theorem State.writeMem_run (s : State) (a v : Byte) : (s.writeMem a v).run = s.run := rfl
@[simp] theorem State.writeMem_mem (s : State) (a v : Byte) : (s.writeMem a v).mem = s.mem.write a v := rfl
@[simp] theorem State.writeMem_out (s : State) (a v : Byte) : (s.writeMem a v).out = s.out := rfl

/-! ### push -/

@[simp] theorem State.push_x (s : State) (v : Byte) : (s.push v).x = s.x.set 7 (s.x.get 7 - 1#8) := rfl
@[simp] theorem State.push_pc (s : State) (v : Byte) : (s.push v).pc = s.pc := rfl
@[simp] theorem State.push_ir (s : State) (v : Byte) : (s.push v).ir = s.ir := rfl
@[simp] theorem State.push_fl (s : State) (v : Byte) : (s.push v).fl = s.fl := rfl
@[simp] theorem State.push_is (s : State) (v : Byte) : (s.push v).is = s.is := rfl
@[simp] theorem State.push_ie (s : State) (v : Byte) : (s.push v).ie = s.ie := rfl
@[simp] theorem State.push_run (s : State) (v : Byte) : (s.push v).run = s.run := rfl
@[simp] theorem State.push_mem (s : State) (v : Byte) : (s.push v).mem = s.mem.write (s.x.get 7 - 1#8) v := rfl
@[simp] theorem State.push_out (s : State) (v : Byte) : (s.push v).out = s.out := rfl

/-! ### pop -/

@[simp] theorem State.pop_x (s : State) : (s.pop.2).x = s.x.set 7 (s.x.get 7 + 1#8) := rfl
@[simp] theorem State.pop_pc (s : State) : (s.pop.2).pc = s.pc := rfl
@[simp] theorem State.pop_ir (s : State) : (s.pop.2).ir = s.ir := rfl
@[simp] theorem State.pop_fl (s : State) : (s.pop.2).fl = s.fl := rfl
@[simp] theorem State.pop_is (s : State) : (s.pop.2).is = s.is := rfl
@[simp] theorem State.pop_ie (s : State) : (s.pop.2).ie = s.ie := rfl
@[simp] theorem State.pop_run (s : State) : (s.pop.2).run = s.run := rfl
@[simp] theorem State.pop_mem (s : State) : (s.pop.2).mem = s.mem := rfl
@[simp] theorem State.pop_out (s : State) : (s.pop.2).out = s.out := rfl

/-! ### popReg -/

@[simp] theorem State.popReg_x (s : State) (i : Fin 8) : (s.popReg i).x = (s.x.set 7 (s.x.get 7 + 1#8)).set i (s.mem.read (s.x.get 7)) := rfl
@[simp] theorem State.popReg_pc (s : State) (i : Fin 8) : (s.popReg i).pc = s.pc := rfl
@[simp] theorem State.popReg_ir (s : State) (i : Fin 8) : (s.popReg i).ir = s.ir := rfl
@[simp] theorem State.popReg_fl (s : State) (i : Fin 8) : (s.popReg i).fl = s.fl := rfl
@[simp] theorem State.popReg_is (s : State) (i : Fin 8) : (s.popReg i).is = s.is := rfl
@[simp] theorem State.popReg_ie (s : State) (i : Fin 8) : (s.popReg i).ie = s.ie := rfl
@[simp] theorem State.popReg_run (s : State) (i : Fin 8) : (s.popReg i).run = s.run := rfl
@[simp] theorem State.popReg_mem (s : State) (i : Fin 8) : (s.popReg i).mem = s.mem := rfl
@[simp] theorem State.popReg_out (s : State) (i : Fin 8) : (s.popReg i).out = s.out := rfl

/-! ### resolvePc -/

@[simp] theorem State.resolvePc_x (s : State) (n : Nat) (d : Option Byte) : (s.resolvePc n d).x = s.x := rfl
@[simp] theorem State.resolvePc_pc (s : State) (n : Nat) (d : Option Byte) : (s.resolvePc n d).pc = d.getD (s.pc + BitVec.ofNat 8 (n + 1)) := rfl
@[simp] theorem State.resolvePc_ir (s : State) (n : Nat) (d : Option Byte) : (s.resolvePc n d).ir = s.ir := rfl
@[simp] theorem State.resolvePc_fl (s : State) (n : Nat) (d : Option Byte) : (s.resolvePc n d).fl = s.fl := rfl
@[simp] theorem State.resolvePc_is (s : State) (n : Nat) (d : Option Byte) : (s.resolvePc n d).is = s.is := rfl
@[simp] theorem State.resolvePc_ie (s : State) (n : Nat) (d : Option Byte) : (s.resolvePc n d).ie = s.ie := rfl
@[simp] theorem State.resolvePc_run (s : State) (n : Nat) (d : Option Byte) : (s.resolvePc n d).run = s.run := rfl
@[simp] theorem State.resolvePc_mem (s : State) (n : Nat) (d : Option Byte) : (s.resolvePc n d).mem = s.mem := rfl
@[simp] theorem State.resolvePc_out (s : State) (n : Nat) (d : Option Byte) : (s.resolvePc n d).out = s.out := rfl

/-! ### raise -/

@[simp] theorem State.raise_x (s : State) (c : HaltCause) : (s.raise c).x = s.x := rfl
@[simp] theorem State.raise_pc (s : State) (c : HaltCause) : (s.raise c).pc = s.pc := rfl
@[simp] theorem State.raise_ir (s : State) (c : HaltCause) : (s.raise c).ir = s.ir := rfl
@[simp] theorem State.raise_fl (s : State) (c : HaltCause) : (s.raise c).fl = s.fl := rfl
@[simp] theorem State.raise_is (s : State) (c : HaltCause) : (s.raise c).is = s.is := rfl
@[simp] theorem State.raise_ie (s : State) (c : HaltCause) : (s.raise c).ie = s.ie := rfl
@[simp] theorem State.raise_run (s : State) (c : HaltCause) : (s.raise c).run = .halted c := rfl
@[simp] theorem State.raise_mem (s : State) (c : HaltCause) : (s.raise c).mem = s.mem := rfl
@[simp] theorem State.raise_out (s : State) (c : HaltCause) : (s.raise c).out = s.out := rfl

/-! ### emit -/

@[simp] theorem State.emit_x (s : State) (e : OutEvent) : (s.emit e).x = s.x := rfl
@[simp] theorem State.emit_pc (s : State) (e : OutEvent) : (s.emit e).pc = s.pc := rfl
@[simp] theorem State.emit_ir (s : State) (e : OutEvent) : (s.emit e).ir = s.ir := rfl
@[simp] theorem State.emit_fl (s : State) (e : OutEvent) : (s.emit e).fl = s.fl := rfl
@[simp] theorem State.emit_is (s : State) (e : OutEvent) : (s.emit e).is = s.is := rfl
@[simp] theorem State.emit_ie (s : State) (e : OutEvent) : (s.emit e).ie = s.ie := rfl
@[simp] theorem State.emit_run (s : State) (e : OutEvent) : (s.emit e).run = s.run := rfl
@[simp] theorem State.emit_mem (s : State) (e : OutEvent) : (s.emit e).mem = s.mem := rfl
@[simp] theorem State.emit_out (s : State) (e : OutEvent) : (s.emit e).out = s.out ++ [e] := rfl

/-! ### fetched -/

@[simp] theorem State.fetched_x (s : State) : (s.fetched).x = s.x := rfl
@[simp] theorem State.fetched_pc (s : State) : (s.fetched).pc = s.pc := rfl
@[simp] theorem State.fetched_ir (s : State) : (s.fetched).ir = s.mem.read s.pc := rfl
@[simp] theorem State.fetched_fl (s : State) : (s.fetched).fl = s.fl := rfl
@[simp] theorem State.fetched_is (s : State) : (s.fetched).is = s.is := rfl
@[simp] theorem State.fetched_ie (s : State) : (s.fetched).ie = s.ie := rfl
@[simp] theorem State.fetched_run (s : State) : (s.fetched).run = s.run := rfl
@[simp] theorem State.fetched_mem (s : State) : (s.fetched).mem = s.mem := rfl
@[simp] theorem State.fetched_out (s : State) : (s.fetched).out = s.out := rfl

end Sys2Proof.Machine
end

