-- ==== Sys2Proof/Laws/Exec.lean ====
section
/-! SUPPORT. Laws/Exec.lean: everything the execution of an instruction can do, said once (40_dispatch.md R96 to R100): a next state
that `exec` answers is one of the thirteen kinds of `Effect`. -/

namespace Sys2Proof.Machine

/-! ### The bits of INT -/

/-- A register value of 0..7 names its line, whatever the setting of `INT_OOR` (R174). -/
theorem intBitsWith_of_le (oor : Config.IntOor) {k : Byte} (h : k.toNat ≤ 7) : intBitsWith oor k = some (1#8 <<< k.toNat) :=
  if_pos h

theorem intBits_of_le {k : Byte} (h : k.toNat ≤ 7) : intBits k = 1#8 <<< k.toNat := by
  rw [intBits, intBitsWith_of_le _ h]; rfl

/-- Above 7 the bits are the free value (log entry 2). -/
theorem intBits_of_gt {k : Byte} (h : 7 < k.toNat) : intBits k = Config.intOutOfRangeBits k := by
  rw [intBits, intBitsWith, if_neg (by omega)]; rfl

/-- INT under a setting of `INT_OOR` is INT wherever that setting's bits are the model's: for 0..7 under every setting, and above 7
where the free value is what the setting ORs. -/
theorem execIntWith_eq (oor : Config.IntOor) (i : Fin 8) (s : State)
    (h : intBitsWith oor (s.getReg i) = some (intBits (s.getReg i))) :
    execIntWith oor (regByte i) s = execInt (regByte i) s := by
  simp only [execIntWith, execInt, withReg_regByte, h]

/-! ### Everything an instruction can do -/

/-- `Effect s i t`: executing `i` at `s` may leave `t`. The last kind is every instruction that writes nothing but general registers
and the PC. -/
inductive Effect (s : State) : Instr → State → Prop
  | invalidRegister (i : Instr) (r : Byte) (hr : 8 ≤ r.toNat)
      (hf : i.registerOperands.find? (fun r => 8 ≤ r.toNat) = some r) : Effect s i (s.raise (.invalidRegister r))
  | divByZero (p q : Fin 8) (hz : s.getReg q = 0#8) :
      Effect s (.div (regByte p) (regByte q)) (s.raise (.divisionByZero .div))
  | modByZero (p q : Fin 8) (hz : s.getReg q = 0#8) :
      Effect s (.mod (regByte p) (regByte q)) (s.raise (.divisionByZero .mod))
  | hlt : Effect s .hlt (({ s with run := .halted .hlt } : State).resolvePc 0 none)
  | iret : Effect s .iret s.interruptReturn
  | cmp (p q : Fin 8) (fl : Byte) :
      Effect s (.cmp (regByte p) (regByte q)) (({ s with fl := fl } : State).resolvePc 2 none)
  | st (p q : Fin 8) :
      Effect s (.st (regByte p) (regByte q)) ((s.writeMem (s.getReg p) (s.getReg q)).resolvePc 2 none)
  | push (p : Fin 8) : Effect s (.push (regByte p)) ((s.push (s.getReg p)).resolvePc 1 none)
  | call (p : Fin 8) : Effect s (.call (regByte p)) ((s.push (s.pc + 2#8)).resolvePc 1 (some (s.getReg p)))
  | int (p : Fin 8) :
      Effect s (.int (regByte p)) (({ s with is := s.is ||| intBits (s.getReg p) } : State).resolvePc 1 none)
  | prn (p : Fin 8) : Effect s (.prn (regByte p)) ((s.emit (.num (s.getReg p))).resolvePc 1 none)
  | pra (p : Fin 8) : Effect s (.pra (regByte p)) ((s.emit (.chr (s.getReg p))).resolvePc 1 none)
  | regs (i : Instr) (hw : WellFormed i) (x : Regs) (pc : Byte) : Effect s i { s with x := x, pc := pc }

theorem wellFormed_of_one {i : Instr} {p : Fin 8} (h : i.registerOperands = [regByte p]) : WellFormed i := by
  simp [WellFormed, Instr.wellFormed, h, regByte_lt]

theorem wellFormed_of_two {i : Instr} {p q : Fin 8} (h : i.registerOperands = [regByte p, regByte q]) :
    WellFormed i := by
  simp [WellFormed, Instr.wellFormed, h, regByte_lt]

/-- Format R: the operand names a register and the meaning goes on, or InvalidRegister is raised. -/
theorem effect_of_one {i : Instr} {a : Byte} {s t : State} {k : Fin 8 → Result} (hi : i.registerOperands = [a])
    (h : withReg a s k = .next t) (hk : ∀ p, a = regByte p → k p = .next t → Effect s i t) : Effect s i t := by
  rcases withReg_next h with ⟨p, ha, hp⟩ | ⟨ha, rfl⟩
  · exact hk p ha hp
  · exact .invalidRegister i a ha (by simp [hi, ha])

/-- Format RR: the same for two operands, the first checked first. -/
theorem effect_of_two {i : Instr} {a b : Byte} {s t : State} {k : Fin 8 → Fin 8 → Result}
    (hi : i.registerOperands = [a, b]) (h : withRegs a b s k = .next t)
    (hk : ∀ p q, a = regByte p → b = regByte q → k p q = .next t → Effect s i t) : Effect s i t := by
  rcases withRegs_next h with ⟨p, q, ha, hb, hp⟩ | ⟨ha, rfl⟩ | ⟨ha, hb, rfl⟩
  · exact hk p q ha hb hp
  · exact .invalidRegister i a ha (by simp [hi, ha])
  · exact .invalidRegister i b hb (by simp [hi, ha, hb])

theorem effect_aluBinary {i : Instr} {f : Byte → Byte → Byte} {a b : Byte} {s t : State}
    (hi : i.registerOperands = [a, b]) (h : aluBinary f a b s = .next t) : Effect s i t :=
  effect_of_two hi h fun p q ha hb hk => by
    subst ha hb
    cases hk
    exact .regs i (wellFormed_of_two hi) _ _

theorem effect_aluUnary {i : Instr} {f : Byte → Byte} {a : Byte} {s t : State}
    (hi : i.registerOperands = [a]) (h : aluUnary f a s = .next t) : Effect s i t :=
  effect_of_one hi h fun p ha hk => by
    subst ha
    cases hk
    exact .regs i (wellFormed_of_one hi) _ _

theorem effect_jumpIf {i : Instr} {c : Bool} {a : Byte} {s t : State}
    (hi : i.registerOperands = [a]) (h : jumpIf c a s = .next t) : Effect s i t :=
  effect_of_one hi h fun p ha hk => by
    subst ha
    cases hk
    exact .regs i (wellFormed_of_one hi) _ _

/-- Everything an instruction can do. -/
theorem exec_effect {i : Instr} {s t : State} (h : exec i s = .next t) : Effect s i t := by
  cases i with
  | nop => cases h; exact .regs .nop rfl _ _
  | hlt => cases h; exact .hlt
  | ret => cases h; exact .regs .ret rfl _ _
  | iret => cases h; exact .iret
  | pra a => exact effect_of_one rfl h fun p ha hk => by subst ha; cases hk; exact .pra p
  | prn a => exact effect_of_one rfl h fun p ha hk => by subst ha; cases hk; exact .prn p
  | call a => exact effect_of_one rfl h fun p ha hk => by subst ha; cases hk; exact .call p
  | int a => exact effect_of_one rfl h fun p ha hk => by subst ha; cases hk; exact .int p
  | pop a =>
    exact effect_of_one rfl h fun p ha hk => by subst ha; cases hk; exact .regs _ (wellFormed_of_one rfl) _ _
  | push a => exact effect_of_one rfl h fun p ha hk => by subst ha; cases hk; exact .push p
  | jmp a => exact effect_jumpIf rfl h
  | jeq a => exact effect_jumpIf rfl h
  | jne a => exact effect_jumpIf rfl h
  | jlt a => exact effect_jumpIf rfl h
  | jgt a => exact effect_jumpIf rfl h
  | not a => exact effect_aluUnary rfl h
  | inc a => exact effect_aluUnary (f := fun u => u + 1#8) rfl h
  | dec a => exact effect_aluUnary (f := fun u => u - 1#8) rfl h
  | ld a b =>
    exact effect_of_two rfl h fun p q ha hb hk => by subst ha hb; cases hk; exact .regs _ (wellFormed_of_two rfl) _ _
  | ldi a imm =>
    exact effect_of_one rfl h fun p ha hk => by subst ha; cases hk; exact .regs _ (wellFormed_of_one rfl) _ _
  | st a b => exact effect_of_two rfl h fun p q ha hb hk => by subst ha hb; cases hk; exact .st p q
  | cmp a b => exact effect_of_two rfl h fun p q ha hb hk => by subst ha hb; cases hk; exact .cmp p q _
  | add a b => exact effect_aluBinary rfl h
  | sub a b => exact effect_aluBinary rfl h
  | mul a b => exact effect_aluBinary rfl h
  | div a b =>
    refine effect_of_two rfl h fun p q ha hb hk => ?_
    subst ha hb
    split at hk
    · next hz => cases hk; exact .divByZero p q hz
    · cases hk; exact .regs _ (wellFormed_of_two rfl) _ _
  | mod a b =>
    refine effect_of_two rfl h fun p q ha hb hk => ?_
    subst ha hb
    split at hk
    · next hz => cases hk; exact .modByZero p q hz
    · cases hk; exact .regs _ (wellFormed_of_two rfl) _ _
  | or a b => exact effect_aluBinary rfl h
  | xor a b => exact effect_aluBinary rfl h
  | and a b => exact effect_aluBinary rfl h

end Sys2Proof.Machine
end

