-- ==== Sys2Proof/Laws/Flags.lean ====
section
/-! SUPPORT. Laws/Flags.lean: everything the flag computation of CMP does (41_alu.md R122, 10_state.md R27). -/

namespace Sys2Proof.Machine

theorem cmpFlags_bits (fl : Byte) (lt gt eq : Bool) (k : Nat) (hk : k < 8) :
    ((fl &&& 0xF8#8) ||| (bitOf lt <<< 2) ||| (bitOf gt <<< 1) ||| bitOf eq).getLsbD k =
      if k = 0 then eq else if k = 1 then gt else if k = 2 then lt else fl.getLsbD k := by
  obtain rfl | rfl | rfl | rfl | rfl | rfl | rfl | rfl :
      k = 0 ∨ k = 1 ∨ k = 2 ∨ k = 3 ∨ k = 4 ∨ k = 5 ∨ k = 6 ∨ k = 7 := by omega
  all_goals cases lt <;> cases gt <;> cases eq <;> simp [bitOf]

@[simp] theorem flagEq_cmpFlags (fl u v : Byte) : flagEq (cmpFlags fl u v) = (u == v) :=
  (cmpFlags_bits _ _ _ _ _ (by decide)).trans rfl

@[simp] theorem flagGt_cmpFlags (fl u v : Byte) : flagGt (cmpFlags fl u v) = v.ult u :=
  (cmpFlags_bits _ _ _ _ _ (by decide)).trans rfl

@[simp] theorem flagLt_cmpFlags (fl u v : Byte) : flagLt (cmpFlags fl u v) = u.ult v :=
  (cmpFlags_bits _ _ _ _ _ (by decide)).trans rfl

/-- Bits 7:3 of FL are kept (D7). -/
theorem cmpFlags_keeps (fl u v : Byte) (k : Nat) (hk : 3 ≤ k) : (cmpFlags fl u v).getLsbD k = fl.getLsbD k := by
  rcases Nat.lt_or_ge k 8 with h | h
  · rw [cmpFlags, cmpFlags_bits _ _ _ _ _ h, if_neg (by omega), if_neg (by omega), if_neg (by omega)]
  · rw [BitVec.getLsbD_of_ge _ _ h, BitVec.getLsbD_of_ge _ _ h]

end Sys2Proof.Machine
end

