-- ==== Sys2Proof/Laws/HostOps.lean ====
section
/-! SUPPORT. Laws/HostOps.lean: everything a write through an accessor does (10_state.md R36). -/

namespace Sys2Proof.Machine

@[simp] theorem State.writeAccessor_ie (s : State) (w : Accessor) (v : Byte) : (s.writeAccessor w v).ie = s.ie := by cases w <;> rfl
@[simp] theorem State.writeAccessor_run (s : State) (w : Accessor) (v : Byte) : (s.writeAccessor w v).run = s.run := by cases w <;> rfl
@[simp] theorem State.writeAccessor_mem (s : State) (w : Accessor) (v : Byte) : (s.writeAccessor w v).mem = s.mem := by cases w <;> rfl
@[simp] theorem State.writeAccessor_out (s : State) (w : Accessor) (v : Byte) : (s.writeAccessor w v).out = s.out := by cases w <;> rfl

/-- What was written is read back through every accessor of the same register, and no other register changes. -/
@[simp] theorem State.readAccessor_writeAccessor (s : State) (w u : Accessor) (v : Byte) :
    (s.writeAccessor w v).readAccessor u = if u.home = w.home then v else s.readAccessor u := by
  cases w <;> cases u <;> simp [State.writeAccessor, State.readAccessor, Accessor.home, Config.imReg]

end Sys2Proof.Machine
end

