-- ==== Sys2Proof/Laws/Memory.lean ====
section
/-! SUPPORT. Laws/Memory.lean: what Memory's two operations do: read after write (R52, R53), and that a write keeps the canonical
form, in which equal contents are equal lists. -/

namespace Sys2Proof.Machine

theorem Memory.lookup_cell (d : Host.Cell) (m : Memory) (k : Nat) :
    List.lookup k (d :: m) = if k = d.1 then some d.2 else m.lookup k := by
  obtain ⟨a, v⟩ := d
  by_cases h : k = a
  · simp [h]
  · have : (k == a) = false := by simpa using h
    simp [List.lookup, this, h]

theorem Memory.lookup_insertCell (c : Host.Cell) (m : Memory) (k : Nat) (h : m.lookup c.1 = none) :
    (Memory.insertCell c m).lookup k = if k = c.1 then some c.2 else m.lookup k := by
  induction m with
  | nil => simp [Memory.insertCell, Memory.lookup_cell]
  | cons d m ih =>
    have hd : c.1 ≠ d.1 := fun e => by simp [Memory.lookup_cell, e] at h
    have hm : m.lookup c.1 = none := by simpa [Memory.lookup_cell, hd] using h
    unfold Memory.insertCell
    split
    · rw [Memory.lookup_cell]
    · rw [Memory.lookup_cell, Memory.lookup_cell, ih hm]
      by_cases hk : k = d.1
      · have : k ≠ c.1 := fun e => hd (e.symm.trans hk)
        rw [if_pos hk, if_neg this, if_pos hk]
      · rw [if_neg hk, if_neg hk]

theorem Memory.lookup_without (m : Memory) (a k : Nat) :
    (m.filter (fun c => c.1 != a)).lookup k = if k = a then none else m.lookup k := by
  induction m with
  | nil => simp
  | cons d m ih =>
    by_cases hd : d.1 = a
    · rw [List.filter_cons_of_neg (by simp [hd]), ih, Memory.lookup_cell, hd]
      by_cases hk : k = a
      · rw [if_pos hk, if_pos hk]
      · rw [if_neg hk, if_neg hk, if_neg hk]
    · rw [List.filter_cons_of_pos (by simp [hd]), Memory.lookup_cell, Memory.lookup_cell, ih]
      by_cases hk : k = d.1
      · have : k ≠ a := fun e => hd (hk.symm.trans e)
        rw [if_pos hk, if_neg this, if_pos hk]
      · rw [if_neg hk, if_neg hk]

/-- A write sets the byte at its address and changes no other (R52), whatever the list. -/
theorem Memory.read_write (m : Memory) (a v b : Byte) :
    (m.write a v).read b = if b = a then v else m.read b := by
  have key : b.toNat = a.toNat ↔ b = a := BitVec.toNat_inj
  unfold Memory.write Memory.read
  split
  · next hv => by_cases h : b = a <;> simp [Memory.lookup_without, key, h, hv]
  · have hn : (m.filter (fun c => c.1 != a.toNat)).lookup a.toNat = none := by
      simp [Memory.lookup_without]
    rw [Memory.lookup_insertCell (a.toNat, v) _ _ hn]
    by_cases h : b = a <;> simp [Memory.lookup_without, key, h]

@[simp] theorem Memory.read_write_same (m : Memory) (a v : Byte) : (m.write a v).read a = v := by
  simp [Memory.read_write]

theorem Memory.read_write_of_ne (m : Memory) (a v b : Byte) (h : b ≠ a) : (m.write a v).read b = m.read b := by
  simp [Memory.read_write, h]

theorem Memory.mem_insertCell (c d : Host.Cell) (m : Memory) :
    d ∈ Memory.insertCell c m ↔ d = c ∨ d ∈ m := by
  induction m with
  | nil => simp [Memory.insertCell]
  | cons e m ih =>
    unfold Memory.insertCell
    split
    · simp
    · simp only [List.mem_cons, ih]
      tauto

theorem Memory.insertCell_rising (c : Host.Cell) (m : Memory) (hm : m.Pairwise (fun c d => c.1 < d.1))
    (hc : ∀ d ∈ m, d.1 ≠ c.1) : (Memory.insertCell c m).Pairwise (fun c d => c.1 < d.1) := by
  induction m with
  | nil => simp [Memory.insertCell]
  | cons e m ih =>
    have he : e.1 ≠ c.1 := hc e (by simp)
    rw [List.pairwise_cons] at hm
    unfold Memory.insertCell
    split
    · next hlt =>
      refine List.pairwise_cons.mpr ⟨?_, List.pairwise_cons.mpr hm⟩
      intro d hd
      rcases List.mem_cons.mp hd with rfl | hd
      · exact hlt
      · exact hlt.trans (hm.1 d hd)
    · refine List.pairwise_cons.mpr ⟨?_, ih hm.2 fun d hd => hc d (by simp [hd])⟩
      intro d hd
      rcases (Memory.mem_insertCell _ _ _).mp hd with rfl | hd
      · omega
      · exact hm.1 d hd

/-- A write keeps the canonical form. -/
theorem Memory.wf_write (m : Memory) (a v : Byte) (h : m.wf) : (m.write a v).wf := by
  obtain ⟨hp, hc⟩ := h
  have hp' := hp.filter (fun c => c.1 != a.toNat)
  have hc' : ∀ c ∈ m.filter (fun c => c.1 != a.toNat), c.1 < Config.memSize ∧ c.2 ≠ Config.unlistedByte :=
    fun c hm => hc c (List.mem_filter.mp hm).1
  unfold Memory.write
  split
  · exact ⟨hp', hc'⟩
  · next hv =>
    refine ⟨Memory.insertCell_rising _ _ hp' fun d hd => ?_, fun c hm => ?_⟩
    · simpa using (List.mem_filter.mp hd).2
    · rcases (Memory.mem_insertCell _ _ _).mp hm with rfl | hm
      · exact ⟨a.isLt, hv⟩
      · exact hc' c hm

end Sys2Proof.Machine
end

