-- ==== Sys2Proof/Laws/Interrupt.lean ====
section
/-! SUPPORT. Laws/Interrupt.lean: the closed forms of interrupt entry (60_exceptions.md R208, R209) and of the return from it
(45_system.md R175), and the interrupt check (R206, R207). -/

namespace Sys2Proof.Machine

@[simp] theorem Regs.set_set (x : Regs) (i : Fin 8) (v w : Byte) : (x.set i v).set i w = x.set i w := by
  fin_cases i <;> rfl

theorem Regs.ext_get (x y : Regs) (h : ∀ i, x.get i = y.get i) : x = y := by
  cases x
  cases y
  simpa [Regs.get] using And.intro (h 0) (And.intro (h 1) (And.intro (h 2) (And.intro (h 3)
    (And.intro (h 4) (And.intro (h 5) (And.intro (h 6) (h 7)))))))

/-! ### Entry -/

theorem State.pushAll_cons (s : State) (v : Byte) (vs : List Byte) : s.pushAll (v :: vs) = (s.push v).pushAll vs := rfl

theorem State.pushAll_nil (s : State) : s.pushAll [] = s := rfl

/-- Pushing changes Memory and SP, nothing else. -/
theorem State.pushAll_eq (s : State) (l : List Byte) :
    s.pushAll l = { s with x := (s.pushAll l).x, mem := (s.pushAll l).mem } := by
  induction l generalizing s with
  | nil => rfl
  | cons v l ih => rw [State.pushAll_cons, ih]; rfl

/-- Memory after the nine pushes: the frame of R209, one byte below the other from SP - 1 to SP - 9. -/
def State.frameMem (s : State) : Memory :=
  ((((((((s.mem.write (s.x.get 7 - 1#8) s.pc).write (s.x.get 7 - 2#8) s.fl).write (s.x.get 7 - 3#8) (s.x.get 0)).write
    (s.x.get 7 - 4#8) (s.x.get 1)).write (s.x.get 7 - 5#8) (s.x.get 2)).write (s.x.get 7 - 6#8) (s.x.get 3)).write
    (s.x.get 7 - 7#8) (s.x.get 4)).write (s.x.get 7 - 8#8) (s.x.get 5)).write (s.x.get 7 - 9#8) (s.x.get 6)

/-- Interrupt entry in closed form (R208, R209). -/
theorem State.interruptEntry_eq (s : State) (i : Fin 8) :
    s.interruptEntry i =
      { s with
        x := s.x.set 7 (s.x.get 7 - 9#8)
        pc := s.frameMem.read (vectorAddress i)
        is := s.is &&& ~~~(lineBit i)
        ie := false
        mem := s.frameMem } := by
  have hx : ∀ t : State, (t.pushAll s.frame).x = t.x.set 7 (t.x.get 7 - 9#8) := fun t => by
    simp [State.frame, State.pushAll_cons, State.pushAll_nil, BitVec.sub_sub]
  have hm : (({ s with is := s.is &&& ~~~(lineBit i) } : State).pushAll s.frame).mem = s.frameMem := by
    simp [State.frame, State.pushAll_cons, State.pushAll_nil, State.frameMem, BitVec.sub_sub]
  unfold State.interruptEntry
  rw [State.pushAll_eq, hx, hm]
  rfl

/-! ### Return -/

@[simp] theorem State.interruptReturn_ie (s : State) : s.interruptReturn.ie = true := rfl
@[simp] theorem State.interruptReturn_ir (s : State) : s.interruptReturn.ir = s.ir := by
  simp [State.interruptReturn, State.popRegs]
@[simp] theorem State.interruptReturn_is (s : State) : s.interruptReturn.is = s.is := by
  simp [State.interruptReturn, State.popRegs]
@[simp] theorem State.interruptReturn_run (s : State) : s.interruptReturn.run = s.run := by
  simp [State.interruptReturn, State.popRegs]
@[simp] theorem State.interruptReturn_mem (s : State) : s.interruptReturn.mem = s.mem := by
  simp [State.interruptReturn, State.popRegs]
@[simp] theorem State.interruptReturn_out (s : State) : s.interruptReturn.out = s.out := by
  simp [State.interruptReturn, State.popRegs]
@[simp] theorem State.interruptReturn_fl (s : State) : s.interruptReturn.fl = s.mem.read (s.x.get 7 + 7#8) := by
  simp [State.interruptReturn, State.popRegs, BitVec.add_assoc]
@[simp] theorem State.interruptReturn_pc (s : State) : s.interruptReturn.pc = s.mem.read (s.x.get 7 + 8#8) := by
  simp [State.interruptReturn, State.popRegs, BitVec.add_assoc]

/-- The registers after IRET: register `j` below 7 from the frame (x[6] at the top of the stack), SP nine higher (R175). -/
theorem State.interruptReturn_x (s : State) (j : Fin 8) :
    s.interruptReturn.x.get j =
      if j = 7 then s.x.get 7 + 9#8 else s.mem.read (s.x.get 7 + BitVec.ofNat 8 (6 - j.val)) := by
  fin_cases j <;> simp [State.interruptReturn, State.popRegs, BitVec.add_assoc]

/-- IRET in closed form (R175). -/
theorem State.interruptReturn_eq (s : State) :
    s.interruptReturn =
      { s with
        x := {
          r0 := s.mem.read (s.x.get 7 + 6#8), r1 := s.mem.read (s.x.get 7 + 5#8)
          r2 := s.mem.read (s.x.get 7 + 4#8), r3 := s.mem.read (s.x.get 7 + 3#8)
          r4 := s.mem.read (s.x.get 7 + 2#8), r5 := s.mem.read (s.x.get 7 + 1#8)
          r6 := s.mem.read (s.x.get 7), r7 := s.x.get 7 + 9#8 }
        pc := s.mem.read (s.x.get 7 + 8#8)
        fl := s.mem.read (s.x.get 7 + 7#8)
        ie := true } := by
  have hx : s.interruptReturn.x =
      { r0 := s.mem.read (s.x.get 7 + 6#8), r1 := s.mem.read (s.x.get 7 + 5#8)
        r2 := s.mem.read (s.x.get 7 + 4#8), r3 := s.mem.read (s.x.get 7 + 3#8)
        r4 := s.mem.read (s.x.get 7 + 2#8), r5 := s.mem.read (s.x.get 7 + 1#8)
        r6 := s.mem.read (s.x.get 7), r7 := s.x.get 7 + 9#8 } := by
    refine Regs.ext_get _ _ fun j => ?_
    rw [State.interruptReturn_x]
    fin_cases j <;> simp [Regs.get]
  refine State.ext_fields hx ?_ ?_ ?_ ?_ ?_ ?_ ?_ ?_ <;> simp

/-! ### The interrupt check -/

/-- A line is taken exactly when the engine is armed and a pending line is enabled (R206). -/
theorem State.takenLine_masked (s : State) (h : s.ie = false) : s.takenLine = none := by
  simp [State.takenLine, h]

theorem lowestLine_none : ∀ p : Byte, lowestLine p = none ↔ p = 0#8 := by decide +kernel

/-- The line found is set and no lower one is (R207). -/
theorem lowestLine_some : ∀ (p : Byte) (i : Fin 8),
    lowestLine p = some i ↔ (p.getLsbD i.val = true ∧ ∀ j : Fin 8, j < i → p.getLsbD j.val = false) := by decide +kernel

theorem State.takenLine_none (s : State) :
    s.takenLine = none ↔ (s.ie = false ∨ s.is &&& s.x.get 5 = 0#8) := by
  cases h : s.ie <;> simp [State.takenLine, h, lowestLine_none]

theorem State.takenLine_some (s : State) (i : Fin 8) :
    s.takenLine = some i ↔ s.ie = true ∧ (s.is &&& s.x.get 5).getLsbD i.val = true ∧
      ∀ j : Fin 8, j < i → (s.is &&& s.x.get 5).getLsbD j.val = false := by
  cases h : s.ie
  · simp [State.takenLine, h]
  · simp only [State.takenLine, h, if_true, State.pending_eq, lowestLine_some, true_and]

end Sys2Proof.Machine
end

