-- ==== Sys2Proof/Laws/PerInstr.lean ====
section
/-! SUPPORT. Laws/PerInstr.lean: the shape of every instruction's encoding, one lemma per constructor (30_encoding.md R71, R80): the
two high bits of the opcode byte give the number of operand bytes that follow it, 0, 1 or 2. -/

namespace Sys2Proof.Laws.Shape

/-- The encoding's length is `n + 1`, and `n` is not 3. -/
def Statement (i : Instr) : Prop :=
  (encode i).length = operandCount (opcodeOf i) + 1 ∧ operandCount (opcodeOf i) < 3

theorem of_parts {i : Instr} (op : Byte) (n : Nat) (ho : opcodeOf i = op) (hl : (operandBytes i).length = n)
    (hn : operandCount op = n) (h3 : n < 3) : Statement i := by
  unfold Statement encode
  rw [ho, hn, List.length_cons, hl]
  exact ⟨rfl, h3⟩

theorem nop : Statement .nop := of_parts 0x00#8 0 rfl rfl (by decide) (by decide)
theorem hlt : Statement .hlt := of_parts 0x01#8 0 rfl rfl (by decide) (by decide)
theorem ret : Statement .ret := of_parts 0x09#8 0 rfl rfl (by decide) (by decide)
theorem iret : Statement .iret := of_parts 0x0B#8 0 rfl rfl (by decide) (by decide)
theorem pra (a : Byte) : Statement (.pra a) := of_parts 0x42#8 1 rfl rfl (by decide) (by decide)
theorem prn (a : Byte) : Statement (.prn a) := of_parts 0x43#8 1 rfl rfl (by decide) (by decide)
theorem call (a : Byte) : Statement (.call a) := of_parts 0x48#8 1 rfl rfl (by decide) (by decide)
theorem int (a : Byte) : Statement (.int a) := of_parts 0x4A#8 1 rfl rfl (by decide) (by decide)
theorem pop (a : Byte) : Statement (.pop a) := of_parts 0x4C#8 1 rfl rfl (by decide) (by decide)
theorem push (a : Byte) : Statement (.push a) := of_parts 0x4D#8 1 rfl rfl (by decide) (by decide)
theorem jmp (a : Byte) : Statement (.jmp a) := of_parts 0x50#8 1 rfl rfl (by decide) (by decide)
theorem jeq (a : Byte) : Statement (.jeq a) := of_parts 0x51#8 1 rfl rfl (by decide) (by decide)
theorem jne (a : Byte) : Statement (.jne a) := of_parts 0x52#8 1 rfl rfl (by decide) (by decide)
theorem jlt (a : Byte) : Statement (.jlt a) := of_parts 0x53#8 1 rfl rfl (by decide) (by decide)
theorem jgt (a : Byte) : Statement (.jgt a) := of_parts 0x54#8 1 rfl rfl (by decide) (by decide)
theorem not (a : Byte) : Statement (.not a) := of_parts 0x70#8 1 rfl rfl (by decide) (by decide)
theorem inc (a : Byte) : Statement (.inc a) := of_parts 0x78#8 1 rfl rfl (by decide) (by decide)
theorem dec (a : Byte) : Statement (.dec a) := of_parts 0x79#8 1 rfl rfl (by decide) (by decide)
theorem ld (a b : Byte) : Statement (.ld a b) := of_parts 0x98#8 2 rfl rfl (by decide) (by decide)
theorem ldi (a b : Byte) : Statement (.ldi a b) := of_parts 0x99#8 2 rfl rfl (by decide) (by decide)
theorem st (a b : Byte) : Statement (.st a b) := of_parts 0x9A#8 2 rfl rfl (by decide) (by decide)
theorem cmp (a b : Byte) : Statement (.cmp a b) := of_parts 0xA0#8 2 rfl rfl (by decide) (by decide)
theorem add (a b : Byte) : Statement (.add a b) := of_parts 0xA8#8 2 rfl rfl (by decide) (by decide)
theorem sub (a b : Byte) : Statement (.sub a b) := of_parts 0xA9#8 2 rfl rfl (by decide) (by decide)
theorem mul (a b : Byte) : Statement (.mul a b) := of_parts 0xAA#8 2 rfl rfl (by decide) (by decide)
theorem div (a b : Byte) : Statement (.div a b) := of_parts 0xAB#8 2 rfl rfl (by decide) (by decide)
theorem mod (a b : Byte) : Statement (.mod a b) := of_parts 0xAC#8 2 rfl rfl (by decide) (by decide)
theorem or (a b : Byte) : Statement (.or a b) := of_parts 0xB1#8 2 rfl rfl (by decide) (by decide)
theorem xor (a b : Byte) : Statement (.xor a b) := of_parts 0xB2#8 2 rfl rfl (by decide) (by decide)
theorem and (a b : Byte) : Statement (.and a b) := of_parts 0xB3#8 2 rfl rfl (by decide) (by decide)

end Sys2Proof.Laws.Shape
end

