-- ==== Sys2Proof/Laws/Step.lean ====
section
/-! SUPPORT. Laws/Step.lean: everything a step can do (40_dispatch.md R90, R101), and that every instruction answers a next state. -/

namespace Sys2Proof.Machine

theorem withReg_total (a : Byte) (s : State) (k : Fin 8 → Result) (h : ∀ i, ∃ t, k i = .next t) :
    ∃ t, withReg a s k = .next t := by
  rcases operand_cases a with ⟨i, rfl⟩ | ha
  · simpa using h i
  · exact ⟨_, withReg_illegal a s k ha⟩

theorem withRegs_total (a b : Byte) (s : State) (k : Fin 8 → Fin 8 → Result) (h : ∀ i j, ∃ t, k i j = .next t) :
    ∃ t, withRegs a b s k = .next t :=
  withReg_total a s _ fun i => withReg_total b s _ fun j => h i j

theorem step_eq (s : State) : step s = stepWith false s := rfl

theorem step_halted (s : State) (c : HaltCause) (h : s.run = .halted c) : step s = .next s := by
  simp [step_eq, stepWith, h]

theorem step_taken (s : State) (i : Fin 8) (hr : s.run = .running) (h : s.takenLine = some i) :
    step s = .next (s.interruptEntry i) := by
  simp [step_eq, stepWith, hr, h]

theorem step_instruction (s : State) (hr : s.run = .running) (h : s.takenLine = none) :
    step s = s.instructionStep := by
  simp [step_eq, stepWith, hr, h]

/-- A setting of `INT_OOR` read to the letter matters to INT alone. -/
theorem stepWithIntOor_eq (oor : Config.IntOor) (s : State) (h : ∀ a, s.decodeNext ≠ .ok (.int a)) :
    stepWithIntOor oor s = step s := by
  unfold stepWithIntOor
  split
  · next hd => exact absurd hd (h _)
  · rfl

/-- The three things a step can be (R101): nothing, one interrupt entry, one instruction (looked up, or unknown). -/
theorem step_cases {s t : State} (h : step s = .next t) :
    (∃ c, s.run = .halted c ∧ t = s) ∨
    (∃ i, s.run = .running ∧ s.takenLine = some i ∧ t = s.interruptEntry i) ∨
    (s.run = .running ∧ s.takenLine = none ∧ ∃ i, s.decodeNext = .ok i ∧ exec i s.fetched = .next t) ∨
    (s.run = .running ∧ s.takenLine = none ∧ ∃ b, s.decodeNext = .error (.unknownInstruction b) ∧
      t = s.fetched.raise (.unknownInstruction b s.pc)) := by
  rcases hr : s.run with _ | c
  · rcases hl : s.takenLine with _ | i
    · rw [step_instruction s hr hl, State.instructionStep] at h
      rcases hd : s.decodeNext with e | i
      · obtain ⟨b⟩ := e
        rw [hd] at h
        cases h
        exact .inr (.inr (.inr ⟨rfl, rfl, b, rfl, rfl⟩))
      · rw [hd] at h
        exact .inr (.inr (.inl ⟨rfl, rfl, i, rfl, h⟩))
    · rw [step_taken s i hr hl] at h
      cases h
      exact .inr (.inl ⟨i, rfl, rfl, rfl⟩)
  · rw [step_halted s c hr] at h
    cases h
    exact .inl ⟨c, rfl, rfl⟩

end Sys2Proof.Machine
end

