-- ==== Sys2Proof/Tests/Slice0.lean ====
section
/-! SUPPORT. Tests/Slice0.lean: tests of the model against the spec's own vectors (95_test_vectors.md, whose expected values are used),
the WellFormed smoke test, one written-out word per instruction, and the witnesses of the obligations' hypotheses. -/

namespace Sys2Proof.Tests

open Sys2Proof.Machine

/-! ## Helpers -/

/-- Whether a result is a next state with the property. -/
def runs (r : Result) (p : State → Bool) : Bool :=
  match r with
  | .next t => p t
  | .fault _ => false
  | .refused _ => false

/-- Bytes at ascending addresses from `a`. -/
def poke (s : State) (a : Byte) : List Byte → State
  | [] => s
  | v :: vs => poke (s.writeMem a v) (a + 1#8) vs

/-- The reset state with bytes at `pc`, the PC there, and some registers set. -/
def boot (pc : Byte) (bytes : List Byte) (regs : List (Fin 8 × Byte)) : State :=
  poke { regs.foldl (fun s r => s.setReg r.1 r.2) State.reset with pc := pc } pc bytes

/-- The state a result holds, or `s`. -/
def after (r : Result) (s : State) : State :=
  match r with
  | .next t => t
  | .fault _ => s
  | .refused _ => s

/-! ## WellFormed: each check refuses an ill-formed term (30_encoding.md R73) -/

theorem test_wf_accepts_seven : WellFormed (.add 7#8 7#8) := by decide
theorem test_wf_refuses_first_operand : ¬ WellFormed (.add 8#8 0#8) := by decide
theorem test_wf_refuses_second_operand : ¬ WellFormed (.add 0#8 8#8) := by decide
theorem test_wf_refuses_only_operand : ¬ WellFormed (.push 255#8) := by decide
theorem test_wf_refuses_ldi_register : ¬ WellFormed (.ldi 8#8 0#8) := by decide
theorem test_wf_any_immediate : WellFormed (.ldi 0#8 255#8) := by decide

/-! ## Decoding: the binary column of R75, one word per instruction -/

theorem test_decode_nop : decode 0b00000000#8 5#8 6#8 = .ok .nop := by decide
theorem test_decode_hlt : decode 0b00000001#8 5#8 6#8 = .ok .hlt := by decide
theorem test_decode_ret : decode 0b00001001#8 5#8 6#8 = .ok .ret := by decide
theorem test_decode_iret : decode 0b00001011#8 5#8 6#8 = .ok .iret := by decide
theorem test_decode_pra : decode 0b01000010#8 5#8 6#8 = .ok (.pra 5#8) := by decide
theorem test_decode_prn : decode 0b01000011#8 5#8 6#8 = .ok (.prn 5#8) := by decide
theorem test_decode_call : decode 0b01001000#8 5#8 6#8 = .ok (.call 5#8) := by decide
theorem test_decode_int : decode 0b01001010#8 5#8 6#8 = .ok (.int 5#8) := by decide
theorem test_decode_pop : decode 0b01001100#8 5#8 6#8 = .ok (.pop 5#8) := by decide
theorem test_decode_push : decode 0b01001101#8 5#8 6#8 = .ok (.push 5#8) := by decide
theorem test_decode_jmp : decode 0b01010000#8 5#8 6#8 = .ok (.jmp 5#8) := by decide
theorem test_decode_jeq : decode 0b01010001#8 5#8 6#8 = .ok (.jeq 5#8) := by decide
theorem test_decode_jne : decode 0b01010010#8 5#8 6#8 = .ok (.jne 5#8) := by decide
theorem test_decode_jlt : decode 0b01010011#8 5#8 6#8 = .ok (.jlt 5#8) := by decide
theorem test_decode_jgt : decode 0b01010100#8 5#8 6#8 = .ok (.jgt 5#8) := by decide
theorem test_decode_not : decode 0b01110000#8 5#8 6#8 = .ok (.not 5#8) := by decide
theorem test_decode_inc : decode 0b01111000#8 5#8 6#8 = .ok (.inc 5#8) := by decide
theorem test_decode_dec : decode 0b01111001#8 5#8 6#8 = .ok (.dec 5#8) := by decide
theorem test_decode_ld : decode 0b10011000#8 5#8 6#8 = .ok (.ld 5#8 6#8) := by decide
theorem test_decode_ldi : decode 0b10011001#8 5#8 6#8 = .ok (.ldi 5#8 6#8) := by decide
theorem test_decode_st : decode 0b10011010#8 5#8 6#8 = .ok (.st 5#8 6#8) := by decide
theorem test_decode_cmp : decode 0b10100000#8 5#8 6#8 = .ok (.cmp 5#8 6#8) := by decide
theorem test_decode_add : decode 0b10101000#8 5#8 6#8 = .ok (.add 5#8 6#8) := by decide
theorem test_decode_sub : decode 0b10101001#8 5#8 6#8 = .ok (.sub 5#8 6#8) := by decide
theorem test_decode_mul : decode 0b10101010#8 5#8 6#8 = .ok (.mul 5#8 6#8) := by decide
theorem test_decode_div : decode 0b10101011#8 5#8 6#8 = .ok (.div 5#8 6#8) := by decide
theorem test_decode_mod : decode 0b10101100#8 5#8 6#8 = .ok (.mod 5#8 6#8) := by decide
theorem test_decode_or : decode 0b10110001#8 5#8 6#8 = .ok (.or 5#8 6#8) := by decide
theorem test_decode_xor : decode 0b10110010#8 5#8 6#8 = .ok (.xor 5#8 6#8) := by decide
theorem test_decode_and : decode 0b10110011#8 5#8 6#8 = .ok (.and 5#8 6#8) := by decide

theorem test_decode_refuses_0x02 : decode 0x02#8 0#8 0#8 = .error (.unknownInstruction 0x02#8) := by decide
theorem test_decode_refuses_count_three : decode 0xC3#8 0#8 0#8 = .error (.unknownInstruction 0xC3#8) := by decide
theorem test_table_word : decodeTableWord 24 0x0800A8 = some (.add 0#8 8#8) := by decide
theorem test_table_word_short : decodeTableWord 8 0x99 = some (.ldi 0#8 0#8) := by decide
theorem test_fetch_word : runs (step (State.reset.withFetchWord 8 0x78)) (fun t => t.getReg 0 == 1#8 && t.pc == 2#8) = true := by
  decide
theorem test_encode_example : [Instr.ldi 0#8 8#8, .ldi 1#8 9#8, .mul 0#8 1#8, .prn 0#8, .hlt].flatMap encode =
    [0x99#8, 0x00#8, 0x08#8, 0x99#8, 0x01#8, 0x09#8, 0xAA#8, 0x00#8, 0x01#8, 0x43#8, 0x00#8, 0x01#8] := by decide

/-! ## One step per instruction (95_test_vectors.md section B; the row is named) -/

/-- B.1 row 1. -/
theorem test_add_wraps :
    runs (step (boot 0x10#8 [0xA8#8, 0x00#8, 0x01#8] [(0, 0xC8#8), (1, 0x64#8)]))
      (fun t => t.getReg 0 == 0x2C#8 && t.pc == 0x13#8 && t.fl == 0x00#8) = true := by decide

/-- B.1 row 4. -/
theorem test_sub_wraps :
    runs (step (boot 0x10#8 [0xA9#8, 0x00#8, 0x01#8] [(0, 0x05#8), (1, 0x0A#8)]))
      (fun t => t.getReg 0 == 0xFB#8) = true := by decide

/-- B.1 row 9. -/
theorem test_mul_low_byte :
    runs (step (boot 0x10#8 [0xAA#8, 0x00#8, 0x01#8] [(0, 0xFF#8), (1, 0xFF#8)]))
      (fun t => t.getReg 0 == 0x01#8) = true := by decide

/-- B.1 row 10. -/
theorem test_div_floor :
    runs (step (boot 0x10#8 [0xAB#8, 0x00#8, 0x01#8] [(0, 0x07#8), (1, 0x02#8)]))
      (fun t => t.getReg 0 == 0x03#8) = true := by decide

/-- B.1 row 14. -/
theorem test_div_zero_halts :
    runs (step (boot 0x10#8 [0xAB#8, 0x00#8, 0x01#8] [(0, 0x07#8)]))
      (fun t => t.getReg 0 == 0x07#8 && t.pc == 0x10#8 && t.ir == 0xAB#8 && t.run == .halted (.divisionByZero .div)) = true := by decide

/-- B.1 row 16. -/
theorem test_mod_remainder :
    runs (step (boot 0x10#8 [0xAC#8, 0x00#8, 0x01#8] [(0, 0x07#8), (1, 0x02#8)]))
      (fun t => t.getReg 0 == 0x01#8) = true := by decide

/-- B.1 row 19. -/
theorem test_mod_zero_halts :
    runs (step (boot 0x10#8 [0xAC#8, 0x00#8, 0x01#8] [(0, 0x09#8)]))
      (fun t => t.getReg 0 == 0x09#8 && t.pc == 0x10#8 && t.ir == 0xAC#8 && t.run == .halted (.divisionByZero .mod)) = true := by decide

/-- B.1 row 20, the source's A1. -/
theorem test_inc_wraps :
    runs (step (boot 0x10#8 [0x78#8, 0x02#8] [(2, 0xFF#8)]))
      (fun t => t.getReg 2 == 0x00#8 && t.pc == 0x12#8) = true := by decide

/-- B.1 row 22. -/
theorem test_dec_wraps :
    runs (step (boot 0x10#8 [0x79#8, 0x02#8] [(2, 0x00#8)]))
      (fun t => t.getReg 2 == 0xFF#8 && t.fl == 0x00#8) = true := by decide

/-- B.1 row 23. -/
theorem test_and_bits :
    runs (step (boot 0x10#8 [0xB3#8, 0x00#8, 0x01#8] [(0, 0xCC#8), (1, 0xAA#8)]))
      (fun t => t.getReg 0 == 0x88#8) = true := by decide

/-- B.1 row 24. -/
theorem test_or_bits :
    runs (step (boot 0x10#8 [0xB1#8, 0x00#8, 0x01#8] [(0, 0xCC#8), (1, 0xAA#8)]))
      (fun t => t.getReg 0 == 0xEE#8) = true := by decide

/-- B.1 row 25. -/
theorem test_xor_bits :
    runs (step (boot 0x10#8 [0xB2#8, 0x00#8, 0x01#8] [(0, 0xCC#8), (1, 0xAA#8)]))
      (fun t => t.getReg 0 == 0x66#8) = true := by decide

/-- B.1 row 27. -/
theorem test_not_bits :
    runs (step (boot 0x10#8 [0x70#8, 0x03#8] [(3, 0x0F#8)]))
      (fun t => t.getReg 3 == 0xF0#8) = true := by decide

/-- B.1 row 33. -/
theorem test_cmp_keeps_high_bits :
    runs (step { boot 0x10#8 [0xA0#8, 0x00#8, 0x01#8] [(0, 0x01#8), (1, 0x02#8)] with fl := 0xF9#8 })
      (fun t => t.fl == 0xFC#8) = true := by decide

/-- B.1 row 30. -/
theorem test_cmp_unsigned :
    runs (step (boot 0x10#8 [0xA0#8, 0x00#8, 0x01#8] [(0, 0x80#8), (1, 0x7F#8)]))
      (fun t => t.fl == 0x02#8) = true := by decide

/-- B.2 row 3. -/
theorem test_ldi_wraps_round_memory :
    runs (step (boot 0xFE#8 [0x99#8, 0x03#8, 0x7E#8] []))
      (fun t => t.getReg 3 == 0x7E#8 && t.pc == 0x01#8) = true := by decide

/-- B.2 row 5. -/
theorem test_ld_own_address :
    runs (step (poke (boot 0x00#8 [0x98#8, 0x01#8, 0x01#8] [(1, 0x80#8)]) 0x80#8 [0x2A#8]))
      (fun t => t.getReg 1 == 0x2A#8 && t.pc == 0x03#8) = true := by decide

/-- B.2 row 8. -/
theorem test_st_over_itself :
    runs (step (boot 0x00#8 [0x9A#8, 0x00#8, 0x01#8] [(0, 0x01#8), (1, 0x55#8)]))
      (fun t => t.readMem 0x01#8 == 0x55#8 && t.readMem 0x00#8 == 0x9A#8 && t.readMem 0x02#8 == 0x01#8 && t.pc == 0x03#8) = true := by decide

/-- B.3 row 3. -/
theorem test_push_wraps :
    runs (step (boot 0x00#8 [0x4D#8, 0x00#8] [(7, 0x00#8), (0, 0x5A#8)]))
      (fun t => t.getReg 7 == 0xFF#8 && t.readMem 0xFF#8 == 0x5A#8 && t.pc == 0x02#8) = true := by decide

/-- B.3 row 5. -/
theorem test_push_sp_stores_old :
    runs (step (boot 0x00#8 [0x4D#8, 0x07#8] []))
      (fun t => t.getReg 7 == 0xF3#8 && t.readMem 0xF3#8 == 0xF4#8) = true := by decide

/-- B.3 row 2. -/
theorem test_pop_loads :
    runs (step (poke (boot 0x00#8 [0x4C#8, 0x01#8] [(7, 0xF3#8)]) 0xF3#8 [0x2A#8]))
      (fun t => t.getReg 1 == 0x2A#8 && t.getReg 7 == 0xF4#8 && t.readMem 0xF3#8 == 0x2A#8 && t.pc == 0x02#8) = true := by decide

/-- B.3 row 6. -/
theorem test_pop_sp_ends_popped :
    runs (step (boot 0x00#8 [0x4C#8, 0x07#8] [(7, 0xF3#8)]))
      (fun t => t.getReg 7 == 0x00#8) = true := by decide

/-- B.4 row 1. -/
theorem test_jmp :
    runs (step (boot 0x17#8 [0x50#8, 0x03#8] [(3, 0x0F#8)]))
      (fun t => t.pc == 0x0F#8) = true := by decide

/-- B.4 row 3. -/
theorem test_jeq_taken :
    runs (step { boot 0x10#8 [0x51#8, 0x02#8] [(2, 0x30#8)] with fl := 0x01#8 })
      (fun t => t.pc == 0x30#8) = true := by decide

/-- B.4 row 6. -/
theorem test_jne_not_taken :
    runs (step { boot 0x17#8 [0x52#8, 0x03#8] [(3, 0x0F#8)] with fl := 0x01#8 })
      (fun t => t.pc == 0x19#8) = true := by decide

/-- B.4 row 7. -/
theorem test_jgt_taken :
    runs (step { boot 0x20#8 [0x54#8, 0x02#8] [(2, 0x40#8)] with fl := 0x02#8 })
      (fun t => t.pc == 0x40#8) = true := by decide

/-- B.4 row 10. -/
theorem test_jlt_not_taken :
    runs (step { boot 0x20#8 [0x53#8, 0x02#8] [(2, 0x40#8)] with fl := 0x02#8 })
      (fun t => t.pc == 0x22#8) = true := by decide

/-- B.4 row 13. -/
theorem test_call_wraps :
    runs (step (boot 0xFF#8 [0x48#8, 0x01#8] [(1, 0x40#8)]))
      (fun t => t.readMem 0xF3#8 == 0x01#8 && t.getReg 7 == 0xF3#8 && t.pc == 0x40#8) = true := by decide

/-- B.4 row 14. -/
theorem test_call_sp_jumps_to_old :
    runs (step (boot 0x00#8 [0x48#8, 0x07#8] []))
      (fun t => t.readMem 0xF3#8 == 0x02#8 && t.getReg 7 == 0xF3#8 && t.pc == 0xF4#8) = true := by decide

/-- B.4 row 16. -/
theorem test_ret_wraps :
    runs (step (poke (boot 0x16#8 [0x09#8] [(7, 0xFF#8)]) 0xFF#8 [0x33#8]))
      (fun t => t.pc == 0x33#8 && t.getReg 7 == 0x00#8) = true := by decide

/-- B.5 row 1. -/
theorem test_nop :
    runs (step (boot 0x0B#8 [0x00#8] []))
      (fun t => t.pc == 0x0C#8 && t.ir == 0x00#8) = true := by decide

/-- B.5 row 2. -/
theorem test_hlt :
    runs (step (boot 0x0B#8 [0x01#8] []))
      (fun t => t.run == .halted .hlt && t.pc == 0x0C#8 && t.ir == 0x01#8) = true := by decide

/-- B.5 row 4. -/
theorem test_prn :
    runs (step (boot 0x00#8 [0x43#8, 0x00#8] [(0, 0x48#8)]))
      (fun t => t.out == [.num 72#8] && t.pc == 0x02#8) = true := by decide

/-- B.5 row 7. -/
theorem test_pra :
    runs (step (boot 0x00#8 [0x42#8, 0x01#8] [(1, 0x41#8)]))
      (fun t => t.out == [.chr 0x41#8] && t.pc == 0x02#8) = true := by decide

/-- B.5 row 9. -/
theorem test_int_adds_line :
    runs (step { boot 0x00#8 [0x4A#8, 0x00#8] [(0, 0x03#8)] with is := 0x01#8 })
      (fun t => t.is == 0x09#8 && t.pc == 0x02#8 && t.ie && t.getReg 7 == 0xF4#8) = true := by decide

/-- B.5 row 10. -/
theorem test_int_already_pending :
    runs (step { boot 0x00#8 [0x4A#8, 0x00#8] [(0, 0x07#8)] with is := 0x80#8 })
      (fun t => t.is == 0x80#8) = true := by decide

/-- B.6 row 9. -/
theorem test_iret_without_entry :
    runs (step (poke (boot 0x00#8 [0x0B#8] [(7, 0xE0#8)]) 0xE0#8 [0x16#8, 0x15#8, 0x14#8, 0x13#8, 0x12#8, 0x11#8, 0x10#8, 0x04#8, 0x50#8]))
      (fun t => t.getReg 6 == 0x16#8 && t.getReg 5 == 0x15#8 && t.getReg 4 == 0x14#8 && t.getReg 3 == 0x13#8 && t.getReg 2 == 0x12#8 && t.getReg 1 == 0x11#8 && t.getReg 0 == 0x10#8 && t.fl == 0x04#8 && t.pc == 0x50#8 && t.getReg 7 == 0xE9#8 && t.ie) = true := by decide

/-! ## Errors and interrupts (95_test_vectors.md B.6) -/

/-- B.6 row 1. -/
theorem test_unknown_opcode :
    runs (step (boot 0x00#8 [0x02#8, 0xFF#8, 0xFF#8] []))
      (fun t => t.pc == 0x00#8 && t.ir == 0x02#8 && t.run == .halted (.unknownInstruction 0x02#8 0x00#8)) = true := by decide

/-- B.6 row 2. -/
theorem test_count_three_unknown :
    runs (step (boot 0x00#8 [0xC3#8, 0x00#8, 0x00#8] []))
      (fun t => t.run == .halted (.unknownInstruction 0xC3#8 0x00#8)) = true := by decide

/-- B.6 row 4. -/
theorem test_first_operand_reported :
    runs (step (boot 0x00#8 [0xAB#8, 0x09#8, 0x01#8] []))
      (fun t => t.run == .halted (.invalidRegister 9#8) && t.pc == 0x00#8) = true := by decide

/-- B.4 row 11. -/
theorem test_jump_not_taken_checks :
    runs (step (boot 0x00#8 [0x51#8, 0x08#8] []))
      (fun t => t.pc == 0x00#8 && t.ir == 0x51#8 && t.run == .halted (.invalidRegister 8#8)) = true := by decide

/-- B.6 row 6. -/
theorem test_lowest_line_first :
    runs (step { poke (poke (boot 0x00#8 [] [(5, 0x0E#8)]) 0xF9#8 [0x30#8]) 0xFB#8 [0x50#8] with is := 0x0A#8 })
      (fun t => t.is == 0x08#8 && !t.ie && t.pc == 0x30#8 && t.getReg 7 == 0xEB#8 && t.readMem 0xF3#8 == 0x00#8 && t.readMem 0xEC#8 == 0x0E#8 && t.ir == 0x00#8) = true := by decide

/-- B.6 row 7. -/
theorem test_interrupt_before_error :
    runs (step { poke (boot 0x00#8 [0x02#8] [(5, 0x80#8)]) 0xFF#8 [0x77#8] with is := 0x80#8, fl := 0x02#8 })
      (fun t => t.is == 0x00#8 && !t.ie && t.pc == 0x77#8 && t.getReg 7 == 0xEB#8 && t.readMem 0xF3#8 == 0x00#8 && t.readMem 0xF2#8 == 0x02#8 && t.readMem 0xEC#8 == 0x80#8 && t.run == .running) = true := by decide

/-- B.6 row 8. -/
theorem test_masked_engine_executes :
    runs (step { boot 0x00#8 [0x00#8] [(5, 0x01#8)] with is := 0x01#8, ie := false })
      (fun t => t.pc == 0x01#8 && t.is == 0x01#8) = true := by decide

/-- B.6 row 10. -/
theorem test_line_masked_off_executes :
    runs (step { boot 0x00#8 [0x00#8] [(5, 0x03#8)] with is := 0x04#8 })
      (fun t => t.pc == 0x01#8 && t.is == 0x04#8) = true := by decide

/-- B.5 row 3. -/
theorem test_halted_step :
    runs (step { boot 0x0B#8 [0x01#8] [(5, 0x01#8)] with is := 0x01#8, run := .halted .hlt })
      (fun t => t.pc == 0x0B#8 && t.is == 0x01#8 && t.run == .halted .hlt) = true := by decide

/-- The result of a step and the status query (R99, R245). -/
theorem test_step_result : (after (step (boot 0#8 [0x01#8] [])) State.reset).stepResult = .halted ∧
    (after (step State.reset) State.reset).stepResult = .continue := by decide
/-- A sink shows PRN's value as its decimal numeral (R172). -/
theorem test_num_text : (OutEvent.num 255#8).text = "255" := by decide
/-- loadByte is refused after a step, a larger Memory at configuration, a smaller one is a fault (R244, U12, R67). -/
theorem test_load_after_start : (Session.apply ⟨State.reset, true⟩ (.loadByte 0#8 1#8)) = .refused .loadAfterStart := by rfl
theorem test_configure_larger : configure 257 [] = .refused (.memorySize 257) := by rfl
theorem test_configure_smaller : configure 255 [] = .fault (.addressOutOfRange 255) := by rfl
/-- A write through the IM accessor before the first step reaches R5; after a step it is refused (R36, R21, D23). -/
theorem test_host_write : Session.apply ⟨State.reset, false⟩ (.writeAccessor .im 0x81#8) =
    .next ⟨{ State.reset with x := State.reset.x.set 5 0x81#8 }, false⟩ := by rfl
theorem test_host_write_after_start : Session.apply ⟨State.reset, true⟩ (.writeAccessor (.gpr 0) 1#8) = .refused .hostWrite := by rfl
/-- INT_OOR read to the letter for a register value of 9: refused, no bit, bit 1 (R174, U3). -/
theorem test_int_oor_refuse : execIntWith .refuse 0#8 (boot 0#8 [] [(0, 9#8)]) = .refused (.intOutOfRange 9#8) := by rfl
theorem test_int_oor_settings :
    (runs (execIntWith .noBit 0#8 (boot 0#8 [] [(0, 9#8)])) (fun t => t.is == 0#8 && t.pc == 2#8) &&
    runs (execIntWith .mod8 0#8 (boot 0#8 [] [(0, 9#8)])) (fun t => t.is == 2#8 && t.pc == 2#8)) = true := by decide
/-- The step under INT_OOR = refuse stops at INT with 8, and is the step for 7. -/
theorem test_step_int_oor : stepWithIntOor .refuse (boot 0#8 [0x4A#8, 0#8] [(0, 8#8)]) = .refused (.intOutOfRange 8#8) ∧
    stepWithIntOor .refuse (boot 0#8 [0x4A#8, 0#8] [(0, 7#8)]) = step (boot 0#8 [0x4A#8, 0#8] [(0, 7#8)]) := ⟨rfl, rfl⟩
/-- HOST_MAY_RAISE: the host ORs a bit into IS when it may, and is refused by default (R246). -/
theorem test_host_raise : (Session.raiseLineWith true 3 ⟨State.reset, true⟩) = .next ⟨{ State.reset with is := 0x08#8 }, true⟩ := by rfl
theorem test_host_raise_default : Session.apply ⟨State.reset, true⟩ (.raiseLine 3) = .refused .hostRaise := by rfl

/-! ## Witnesses: an illegal operand byte at the boundary, for every instruction that checks one (ChecksR, ChecksRR) -/

theorem witness_illegal_PraEmitsChr :
    runs (exec (.pra 8#8) State.reset) (fun t => t == { State.reset with run := .halted (.invalidRegister 8#8) }) = true := by decide
theorem witness_illegal_PrnEmitsNum :
    runs (exec (.prn 8#8) State.reset) (fun t => t == { State.reset with run := .halted (.invalidRegister 8#8) }) = true := by decide
theorem witness_illegal_CallPushesPcPlusTwo :
    runs (exec (.call 8#8) State.reset) (fun t => t == { State.reset with run := .halted (.invalidRegister 8#8) }) = true := by decide
theorem witness_illegal_IntSetsTheNamedLine :
    runs (exec (.int 8#8) State.reset) (fun t => t == { State.reset with run := .halted (.invalidRegister 8#8) }) = true := by decide
theorem witness_illegal_PopLoadsTopOfStack :
    runs (exec (.pop 8#8) State.reset) (fun t => t == { State.reset with run := .halted (.invalidRegister 8#8) }) = true := by decide
theorem witness_illegal_PushStoresBelowSp :
    runs (exec (.push 8#8) State.reset) (fun t => t == { State.reset with run := .halted (.invalidRegister 8#8) }) = true := by decide
theorem witness_illegal_JmpGoesToRegA :
    runs (exec (.jmp 8#8) State.reset) (fun t => t == { State.reset with run := .halted (.invalidRegister 8#8) }) = true := by decide
theorem witness_illegal_JeqJumpsWhenEqual :
    runs (exec (.jeq 8#8) State.reset) (fun t => t == { State.reset with run := .halted (.invalidRegister 8#8) }) = true := by decide
theorem witness_illegal_JneJumpsWhenNotEqual :
    runs (exec (.jne 8#8) State.reset) (fun t => t == { State.reset with run := .halted (.invalidRegister 8#8) }) = true := by decide
theorem witness_illegal_JltJumpsWhenLess :
    runs (exec (.jlt 8#8) State.reset) (fun t => t == { State.reset with run := .halted (.invalidRegister 8#8) }) = true := by decide
theorem witness_illegal_JgtJumpsWhenGreater :
    runs (exec (.jgt 8#8) State.reset) (fun t => t == { State.reset with run := .halted (.invalidRegister 8#8) }) = true := by decide
theorem witness_illegal_NotComplementsEightBits :
    runs (exec (.not 8#8) State.reset) (fun t => t == { State.reset with run := .halted (.invalidRegister 8#8) }) = true := by decide
theorem witness_illegal_IncAddsOneMod256 :
    runs (exec (.inc 8#8) State.reset) (fun t => t == { State.reset with run := .halted (.invalidRegister 8#8) }) = true := by decide
theorem witness_illegal_DecSubtractsOneMod256 :
    runs (exec (.dec 8#8) State.reset) (fun t => t == { State.reset with run := .halted (.invalidRegister 8#8) }) = true := by decide
theorem witness_illegal_LdReadsTheByteAtRegB :
    (runs (exec (.ld 8#8 9#8) State.reset) (fun t => t == { State.reset with run := .halted (.invalidRegister 8#8) }) &&
    runs (exec (.ld 7#8 8#8) State.reset) (fun t => t == { State.reset with run := .halted (.invalidRegister 8#8) })) = true := by decide
theorem witness_illegal_LdiLoadsImmediate :
    runs (exec (.ldi 8#8 255#8) State.reset) (fun t => t == { State.reset with run := .halted (.invalidRegister 8#8) }) = true := by decide
theorem witness_illegal_StWritesRegBAtRegA :
    (runs (exec (.st 8#8 9#8) State.reset) (fun t => t == { State.reset with run := .halted (.invalidRegister 8#8) }) &&
    runs (exec (.st 7#8 8#8) State.reset) (fun t => t == { State.reset with run := .halted (.invalidRegister 8#8) })) = true := by decide
theorem witness_illegal_CmpSetsThreeFlags :
    (runs (exec (.cmp 8#8 9#8) State.reset) (fun t => t == { State.reset with run := .halted (.invalidRegister 8#8) }) &&
    runs (exec (.cmp 7#8 8#8) State.reset) (fun t => t == { State.reset with run := .halted (.invalidRegister 8#8) })) = true := by decide
theorem witness_illegal_AddGivesSumMod256 :
    (runs (exec (.add 8#8 9#8) State.reset) (fun t => t == { State.reset with run := .halted (.invalidRegister 8#8) }) &&
    runs (exec (.add 7#8 8#8) State.reset) (fun t => t == { State.reset with run := .halted (.invalidRegister 8#8) })) = true := by decide
theorem witness_illegal_SubGivesDifferenceMod256 :
    (runs (exec (.sub 8#8 9#8) State.reset) (fun t => t == { State.reset with run := .halted (.invalidRegister 8#8) }) &&
    runs (exec (.sub 7#8 8#8) State.reset) (fun t => t == { State.reset with run := .halted (.invalidRegister 8#8) })) = true := by decide
theorem witness_illegal_MulGivesLowByteOfProduct :
    (runs (exec (.mul 8#8 9#8) State.reset) (fun t => t == { State.reset with run := .halted (.invalidRegister 8#8) }) &&
    runs (exec (.mul 7#8 8#8) State.reset) (fun t => t == { State.reset with run := .halted (.invalidRegister 8#8) })) = true := by decide
theorem witness_illegal_DivGivesUnsignedQuotient :
    (runs (exec (.div 8#8 9#8) State.reset) (fun t => t == { State.reset with run := .halted (.invalidRegister 8#8) }) &&
    runs (exec (.div 7#8 8#8) State.reset) (fun t => t == { State.reset with run := .halted (.invalidRegister 8#8) })) = true := by decide
theorem witness_illegal_ModGivesUnsignedRemainder :
    (runs (exec (.mod 8#8 9#8) State.reset) (fun t => t == { State.reset with run := .halted (.invalidRegister 8#8) }) &&
    runs (exec (.mod 7#8 8#8) State.reset) (fun t => t == { State.reset with run := .halted (.invalidRegister 8#8) })) = true := by decide
theorem witness_illegal_OrIsBitwise :
    (runs (exec (.or 8#8 9#8) State.reset) (fun t => t == { State.reset with run := .halted (.invalidRegister 8#8) }) &&
    runs (exec (.or 7#8 8#8) State.reset) (fun t => t == { State.reset with run := .halted (.invalidRegister 8#8) })) = true := by decide
theorem witness_illegal_XorIsBitwise :
    (runs (exec (.xor 8#8 9#8) State.reset) (fun t => t == { State.reset with run := .halted (.invalidRegister 8#8) }) &&
    runs (exec (.xor 7#8 8#8) State.reset) (fun t => t == { State.reset with run := .halted (.invalidRegister 8#8) })) = true := by decide
theorem witness_illegal_AndIsBitwise :
    (runs (exec (.and 8#8 9#8) State.reset) (fun t => t == { State.reset with run := .halted (.invalidRegister 8#8) }) &&
    runs (exec (.and 7#8 8#8) State.reset) (fun t => t == { State.reset with run := .halted (.invalidRegister 8#8) })) = true := by decide

/-! ## Witnesses of the other hypotheses -/

/-- DIV and MOD: a divisor that is not 0, and one that is. -/
theorem witness_DivGivesUnsignedQuotient :
    (boot 0#8 [] [(0, 255#8), (1, 1#8)]).getReg 1 ≠ 0#8 ∧ State.reset.getReg 1 = 0#8 := by decide
theorem witness_ModGivesUnsignedRemainder :
    (boot 0#8 [] [(0, 255#8), (1, 255#8)]).getReg 1 ≠ 0#8 ∧ State.reset.getReg 1 = 0#8 := by decide
/-- LDI R5 at an armed state with line 7 pending. -/
theorem witness_LdiLoadsImmediate : ({ State.reset with is := 0x80#8 } : State).run = .running ∧ ({ State.reset with is := 0x80#8 } : State).ie = true ∧ (0x80#8 : Byte) &&& 0x80#8 ≠ 0#8 ∧
    exec (.ldi (regByte 5) 0x80#8) { State.reset with is := 0x80#8 } =
      .next { State.reset with is := 0x80#8, x := State.reset.x.set 5 0x80#8, pc := 3#8 } ∧
    TakesLine { State.reset with is := 0x80#8, x := State.reset.x.set 5 0x80#8, pc := 3#8 } 7 :=
  ⟨rfl, rfl, by decide, rfl, rfl, by decide⟩
/-- The POP clause that excludes R7. -/
theorem witness_PopLoadsTopOfStack : (6 : Fin 8) ≠ 7 := by decide
/-- Each conditional jump: its flag set and clear. -/
theorem witness_JeqJumpsWhenEqual : ({ State.reset with fl := 1#8 } : State).fl.getLsbD 0 = true ∧ State.reset.fl.getLsbD 0 = false := by decide
theorem witness_JneJumpsWhenNotEqual : State.reset.fl.getLsbD 0 = false ∧ ({ State.reset with fl := 1#8 } : State).fl.getLsbD 0 = true := by decide
theorem witness_JgtJumpsWhenGreater : ({ State.reset with fl := 2#8 } : State).fl.getLsbD 1 = true ∧ State.reset.fl.getLsbD 1 = false := by decide
theorem witness_JltJumpsWhenLess : ({ State.reset with fl := 4#8 } : State).fl.getLsbD 2 = true ∧ State.reset.fl.getLsbD 2 = false := by decide
/-- INT: the last value in range and the first one out of it, and a pending bit to keep. -/
theorem witness_IntSetsTheNamedLine : ((boot 0#8 [] [(0, 7#8)]).getReg 0).toNat ≤ 7 := by decide
theorem witness_IntOutOfRangeOnlyAddsToIs : 8 ≤ ((boot 0#8 [] [(0, 8#8)]).getReg 0).toNat ∧
    ({ boot 0#8 [] [(0, 8#8)] with is := 0x80#8 } : State).is.getLsbD 7 = true := by decide
/-- Two canonical Memories that read alike. -/
theorem witness_CanonicalMemoriesThatReadAlikeAreEqual :
    Memory.wf [(0, 1#8), (255, 2#8)] ∧ ∀ a, Memory.read [(0, 1#8), (255, 2#8)] a = Memory.read (Memory.write [(0, 1#8)] 255#8 2#8) a :=
  ⟨by decide, fun _ => rfl⟩
/-- PUSH R7 then POP R0. -/
theorem witness_PushThenPopRestores : (0 : Fin 8) ≠ 7 := by decide
/-- CALL from 0xFF, and the state the RET is run from (here CALL's own). -/
theorem witness_CallThenRetReturns :
    runs (exec (.call (regByte 7)) (boot 0xFF#8 [] []))
      (fun t => runs (exec .ret t) (fun u => u.pc == 0x01#8 && u.getReg 7 == 0xF4#8)) = true := by decide
/-- A running state with no line to take, at an ADD that straddles the end of Memory. -/
theorem witness_StepRunsTheDecodedInstruction :
    RunsInstruction (boot 0xFE#8 [0xA8#8, 0#8, 1#8] []) ∧ FetchesInstr (boot 0xFE#8 [0xA8#8, 0#8, 1#8] []) (.add 0#8 1#8) :=
  ⟨⟨rfl, by decide⟩, rfl⟩
/-- A byte that is no opcode, below and above 0xC0. -/
theorem witness_UnknownOpcodeHalts : RunsInstruction (boot 0#8 [0xFF#8] []) ∧
    ∀ x y i, decode ((boot 0#8 [0xFF#8] []).readMem 0#8) x y ≠ .ok i :=
  ⟨⟨rfl, by decide⟩, fun _ _ _ h => nomatch h⟩
theorem witness_IllegalOpcodesAreTheOther226 : (0xC0#8 : Byte) ≤ 0xC0#8 ∧ (0xB4#8 : Byte) ∉ opcodeValues ∧ (0xB3#8 : Byte) ∈ opcodeValues := by
  decide
/-- A halted state with an interrupt pending. -/
theorem witness_HaltedStepDoesNothing :
    ({ boot 0#8 [0x78#8] [(5, 1#8)] with is := 1#8, run := .halted .hlt } : State).run = .halted .hlt := rfl
/-- Each clause of the interrupt check: taken; masked engine; nothing enabled; halted. -/
theorem witness_InterruptTakenExactlyWhenArmedAndPending :
    (let s : State := { boot 0#8 [] [(5, 0x80#8)] with is := 0x80#8 }
     s.run = .running ∧ s.ie = true ∧ s.is &&& s.getReg 5 ≠ 0#8) ∧
    (let s : State := { boot 0#8 [] [(5, 0x80#8)] with is := 0x80#8, ie := false }
     s.run = .running ∧ s.ie = false) ∧
    (let s : State := { boot 0#8 [] [(5, 0x80#8)] with is := 0x7F#8 }
     s.run = .running ∧ s.is &&& s.getReg 5 = 0#8) := by decide
/-- The last line, with a lower one pending but masked off. -/
theorem witness_InterruptEntrySavesNineBytes :
    let s : State := { boot 0#8 [] [(5, 0x80#8)] with is := 0x81#8 }
    s.run = .running ∧ s.ie = true ∧ (s.is &&& s.getReg 5).getLsbD (7 : Fin 8).val = true ∧
      ∀ j : Fin 8, j < 7 → (s.is &&& s.getReg 5).getLsbD j.val = false := by decide
/-- The source's scenario A8: line 0, whose vector holds the address of an IRET. -/
def scenarioA8 : State :=
  { poke (poke (boot 2#8 [0x01#8] [(5, 1#8)]) 0xF8#8 [0x20#8]) 0x20#8 [0x0B#8] with is := 1#8 }
theorem witness_InterruptIsTransparentToTheProgram :
    TakesLine scenarioA8 0 ∧ step scenarioA8 = .next (scenarioA8.interruptEntry 0) ∧
    (scenarioA8.interruptEntry 0).run = .running ∧ (scenarioA8.interruptEntry 0).ie = false ∧
    (scenarioA8.interruptEntry 0).readMem (scenarioA8.interruptEntry 0).pc = 0x0B#8 :=
  ⟨⟨rfl, by decide⟩, rfl, rfl, rfl, by decide⟩
/-- A state that takes a line, and one that takes none. -/
theorem witness_FusedStepIsTheSameRun : TakesLine scenarioA8 0 ∧ step scenarioA8 = .next (scenarioA8.interruptEntry 0) ∧
    ∀ i, ¬ TakesLine State.reset i :=
  ⟨⟨rfl, by decide⟩, rfl, fun _ h => nomatch h.2⟩
/-- A state with Inv and a step that answers; and the halted kinds of Inv. -/
theorem witness_EveryStepKeepsTheInvariant : Inv (boot 0#8 [0xAB#8] []) ∧
    step (boot 0#8 [0xAB#8] []) = .next { boot 0#8 [0xAB#8] [] with ir := 0xAB#8, run := .halted (.divisionByZero .div) } ∧
    Inv { boot 0#8 [0xAB#8] [] with ir := 0xAB#8, run := .halted (.divisionByZero .div) } ∧
    Inv { boot 0#8 [0x78#8, 8#8] [] with ir := 0x78#8, run := .halted (.invalidRegister 8#8) } :=
  ⟨⟨by decide, trivial⟩, rfl, ⟨by decide, rfl⟩, ⟨by decide, by decide, .inc 8#8, by decide, by decide⟩⟩
/-- 0x41 is no opcode, so no engine is halted there by an illegal register. -/
theorem test_halt_coherent_rejects : ∀ i : Instr, opcodeOf i ≠ 0x41#8 := by intro i; cases i <;> simp [opcodeOf]
/-- A step that ends in DivisionByZero. -/
theorem witness_FailingStepCommitsOnlyIrAndRun : (boot 0#8 [0xAB#8] []).run = .running ∧
    runs (step (boot 0#8 [0xAB#8] [])) (fun t => t.run == .halted (.divisionByZero .div)) = true ∧
    HaltCause.divisionByZero .div ≠ .hlt := by decide
/-- An ill-formed instruction whose second operand is the illegal one; a well-formed one at a state halted so before. -/
theorem witness_FirstIllegalOperandIsReported : ¬ WellFormed (.ld 7#8 8#8) ∧ WellFormed .nop ∧
    runs (exec .nop { State.reset with run := .halted (.invalidRegister 8#8) })
      (fun t => t.run == .halted (.invalidRegister 8#8)) = true := by decide
/-- Each clause about IE: an entry masks; IRET arms; an instruction that is not IRET; a line masked off. -/
theorem witness_OnlyEntryMasksAndOnlyIretArms :
    (scenarioA8.ie = true ∧ runs (step scenarioA8) (fun t => !t.ie) = true) ∧
    (runs (step { boot 0#8 [0x0B#8] [] with ie := false }) (fun t => t.ie) = true) ∧
    (Instr.nop ≠ .iret ∧ runs (exec .nop State.reset) (fun _ => true) = true) ∧
    (State.reset.getReg 5).getLsbD (7 : Fin 8).val = false := by decide
theorem witness_entry_and_iret_steps : TakesLine scenarioA8 0 ∧
    RunsInstruction { boot 0#8 [0x0B#8] [] with ie := false } ∧ FetchesInstr { boot 0#8 [0x0B#8] [] with ie := false } .iret :=
  ⟨⟨rfl, by decide⟩, ⟨rfl, by decide⟩, rfl⟩
/-- FL changes by a CMP of equal registers at reset. -/
theorem witness_OnlyCmpAndIretChangeFl : runs (step (boot 0#8 [0xA0#8] [])) (fun t => t.fl != State.reset.fl) = true := by decide
/-- A bit of IS falls (entry), a bit of IS rises (INT R0 with 0). -/
theorem witness_PendingBitsRiseByIntAndFallByEntry :
    (scenarioA8.is.getLsbD (0 : Fin 8).val = true ∧ runs (step scenarioA8) (fun t => !t.is.getLsbD (0 : Fin 8).val) = true) ∧
    (runs (step (boot 0#8 [0x4A#8] [])) (fun t => t.is.getLsbD (0 : Fin 8).val) = true ∧
      (boot 0#8 [0x4A#8] []).is.getLsbD (0 : Fin 8).val = false) := by decide
/-- A byte changes: by entry, by ST, by PUSH. -/
theorem witness_MemoryIsWrittenOnlyByFourAgents :
    runs (step scenarioA8) (fun t => t.readMem 0xF3#8 != scenarioA8.readMem 0xF3#8) = true ∧
    runs (step (boot 0#8 [0x9A#8, 7#8, 7#8] [])) (fun t => t.readMem 0xF4#8 != 0#8) = true ∧
    runs (step (boot 0#8 [0x4D#8, 7#8] [])) (fun t => t.readMem 0xF3#8 != 0#8) = true := by decide
/-- IR: an instruction step, an entry, a halted engine. -/
theorem witness_IrIsWrittenByFetchAloneAndNeverRead : RunsInstruction (boot 0#8 [0x78#8] []) ∧ TakesLine scenarioA8 0 ∧
    ({ State.reset with run := .halted .hlt } : State).run = .halted .hlt ∧
    runs (step (boot 0#8 [0x78#8] [])) (fun t => t.ir == 0x78#8) = true :=
  ⟨⟨rfl, by decide⟩, ⟨rfl, by decide⟩, rfl, by decide⟩
/-- A step that prints after something was printed. -/
theorem witness_OutputIsWriteOnly :
    runs (step { boot 0#8 [0x43#8, 7#8] [] with out := [.chr 1#8] }) (fun t => t.out == [.chr 1#8, .num 0xF4#8]) = true := by decide
theorem witness_OutGrowsOnlyByPrnAndPra : runs (step (boot 0#8 [0x42#8, 7#8] [])) (fun t => t.out == [.chr 0xF4#8]) = true := by
  decide
/-- LDI R0,8 at 0xFE, its immediate at 0x00. -/
theorem witness_EncodedInstructionIsFetchedAndRun : RunsInstruction (boot 0xFE#8 (encode (.ldi 0#8 8#8)) []) ∧
    ∀ k : Fin 3, (boot 0xFE#8 (encode (.ldi 0#8 8#8)) []).readMem (0xFE#8 + BitVec.ofNat 8 k.val) = (encode (.ldi 0#8 8#8))[k] :=
  ⟨⟨rfl, by decide⟩, by decide⟩
theorem witness_DecodedBytesAreTheEncoding : decode 0x09#8 0xFF#8 0xFF#8 = .ok .ret ∧ decode 0x99#8 7#8 0xFF#8 = .ok (.ldi 7#8 0xFF#8) := by
  decide
/-- A register other than SP. -/
theorem witness_ResetLeavesTheTableOfR34 : (6 : Fin 8) ≠ 7 := by decide
theorem witness_AddressOutOfRangeIsConfigurationOnly : 255 < 256 := by decide
/-- A step that answers, before a second loadByte; two accessors of different registers. -/
theorem witness_LoadByteWritesMemoryBeforeTheFirstStepOnly : step State.reset = .next { State.reset with pc := 1#8 } ∧
    Accessor.home .im ≠ Accessor.home (.gpr 6) := ⟨rfl, by decide⟩

end Sys2Proof.Tests
end

/-! Proofs for 10_state.md, part 1: the step in the terms of Safety.lean, what no instruction reads (IR, IE, OUT), and the two
statements about IE (R30) and IR (R26). -/

namespace Sys2Proof.Machine

/-! ### The step in the terms of Safety.lean -/

theorem fetchesInstr_iff {s : State} {i : Instr} : FetchesInstr s i ↔ s.decodeNext = .ok i := by
  rw [State.decodeNext_eq, FetchesInstr]

theorem step_of_takesLine {s : State} {i : Fin 8} (hl : TakesLine s i) : step s = .next (s.interruptEntry i) :=
  step_taken s i hl.1 hl.2

theorem step_of_fetchesInstr {s : State} {i : Instr} (hr : RunsInstruction s) (hf : FetchesInstr s i) :
    step s = exec i s.fetched := by
  rw [step_instruction s hr.1 hr.2, State.instructionStep, fetchesInstr_iff.mp hf]

/-- The step of a running engine that takes no line: the fetched instruction is executed, or its opcode is unknown (R94). -/
theorem step_of_runsInstruction {s t : State} (hr : RunsInstruction s) (h : step s = .next t) :
    (∃ i, FetchesInstr s i ∧ exec i s.fetched = .next t) ∨ ∃ c, t = s.fetched.raise c := by
  obtain ⟨hrun, hline⟩ := hr
  rcases step_cases h with ⟨c, hc, -⟩ | ⟨i, -, hi, -⟩ | ⟨-, -, i, hd, he⟩ | ⟨-, -, b, -, rfl⟩
  · simp [hrun] at hc
  · simp [hline] at hi
  · exact .inl ⟨i, fetchesInstr_iff.mpr hd, he⟩
  · exact .inr ⟨_, rfl⟩

/-! ### IR and IE after an instruction and after an entry -/

/-- Execute leaves IR as the fetch wrote it (R26). -/
theorem exec_keeps_ir {i : Instr} {s t : State} (h : exec i s = .next t) : t.ir = s.ir := by
  cases exec_effect h with
  | iret => exact s.interruptReturn_ir
  | _ => rfl

theorem exec_keeps_ie {i : Instr} {s t : State} (hi : i ≠ .iret) (h : exec i s = .next t) : t.ie = s.ie := by
  cases exec_effect h with
  | iret => exact absurd rfl hi
  | _ => rfl

theorem exec_iret_arms {s t : State} (h : exec .iret s = .next t) : t.ie = true := by
  cases h
  exact s.interruptReturn_ie

theorem State.interruptEntry_ir (s : State) (i : Fin 8) : (s.interruptEntry i).ir = s.ir := by
  rw [State.interruptEntry_eq]

theorem State.interruptEntry_ie (s : State) (i : Fin 8) : (s.interruptEntry i).ie = false := rfl

/-! ### What no instruction reads -/

/-- `s` with other contents of the fields that no instruction reads: IR, IE, and earlier events in OUT. -/
def State.changeUnread (f : Byte → Byte) (g : Bool → Bool) (o : List OutEvent) (s : State) : State :=
  { s with ir := f s.ir, ie := g s.ie, out := o ++ s.out }

section
variable {f : Byte → Byte} {g : Bool → Bool} {o : List OutEvent}

theorem withReg_changeUnread {a : Byte} {s t : State} {k k' : Fin 8 → Result}
    (hk : ∀ p u, k p = .next u → k' p = .next (u.changeUnread f g o)) (h : withReg a s k = .next t) :
    withReg a (s.changeUnread f g o) k' = .next (t.changeUnread f g o) := by
  rcases withReg_next h with ⟨p, rfl, hp⟩ | ⟨ha, rfl⟩
  · rw [withReg_regByte]
    exact hk p t hp
  · exact withReg_illegal a _ k' ha

theorem withRegs_changeUnread {a b : Byte} {s t : State} {k k' : Fin 8 → Fin 8 → Result}
    (hk : ∀ p q u, k p q = .next u → k' p q = .next (u.changeUnread f g o)) (h : withRegs a b s k = .next t) :
    withRegs a b (s.changeUnread f g o) k' = .next (t.changeUnread f g o) :=
  withReg_changeUnread (fun p _ hp => withReg_changeUnread (hk p) hp) h

theorem aluBinary_changeUnread {op : Byte → Byte → Byte} {a b : Byte} {s t : State} (h : aluBinary op a b s = .next t) :
    aluBinary op a b (s.changeUnread f g o) = .next (t.changeUnread f g o) :=
  withRegs_changeUnread (fun p q u hu => by cases hu; rfl) h

theorem aluUnary_changeUnread {op : Byte → Byte} {a : Byte} {s t : State} (h : aluUnary op a s = .next t) :
    aluUnary op a (s.changeUnread f g o) = .next (t.changeUnread f g o) :=
  withReg_changeUnread (fun p u hu => by cases hu; rfl) h

/-- Whether the divisor is zero does not depend on the changed fields. -/
theorem aluDivide_changeUnread {d : DivOp} {op : Byte → Byte → Byte} {a b : Byte} {s t : State}
    (h : aluDivide d op a b s = .next t) :
    aluDivide d op a b (s.changeUnread f g o) = .next (t.changeUnread f g o) := by
  refine withRegs_changeUnread (fun p q u hu => ?_) h
  have hq : (s.changeUnread f g o).getReg q = s.getReg q := rfl
  rw [hq]
  split at hu
  · next hz => cases hu; exact if_pos hz
  · next hz => cases hu; exact if_neg hz

theorem jumpIf_changeUnread {c : Bool} {a : Byte} {s t : State} (h : jumpIf c a s = .next t) :
    jumpIf c a (s.changeUnread f g o) = .next (t.changeUnread f g o) :=
  withReg_changeUnread (fun p u hu => by cases hu; rfl) h

theorem State.emit_resolvePc_changeUnread (s : State) (e : OutEvent) (n : Nat) (d : Option Byte) :
    ((s.changeUnread f g o).emit e).resolvePc n d = ((s.emit e).resolvePc n d).changeUnread f g o := by
  simp [State.emit, State.resolvePc, State.changeUnread]

/-- IRET sets IE whatever it was, so a change that keeps `true` is the same before and after it (R175). -/
theorem State.interruptReturn_changeUnread (hg : g true = true) (s : State) :
    (s.changeUnread f g o).interruptReturn = s.interruptReturn.changeUnread f g o := by
  simp only [State.interruptReturn_eq, State.changeUnread, hg]

/-- No instruction reads IR, IE or OUT: changing them before it gives the same next state, changed alike. -/
theorem exec_changeUnread {i : Instr} {s t : State} (hg : i = .iret → g true = true) (h : exec i s = .next t) :
    exec i (s.changeUnread f g o) = .next (t.changeUnread f g o) := by
  cases i with
  | nop => cases h; rfl
  | hlt => cases h; rfl
  | ret => cases h; rfl
  | iret => cases h; exact congrArg _ (s.interruptReturn_changeUnread (hg rfl))
  | pra a =>
    refine withReg_changeUnread (fun p u hu => ?_) h
    cases hu
    exact congrArg _ (s.emit_resolvePc_changeUnread _ 1 none)
  | prn a =>
    refine withReg_changeUnread (fun p u hu => ?_) h
    cases hu
    exact congrArg _ (s.emit_resolvePc_changeUnread _ 1 none)
  | call a => exact withReg_changeUnread (fun p u hu => by cases hu; rfl) h
  | int a => exact withReg_changeUnread (fun p u hu => by cases hu; rfl) h
  | pop a => exact withReg_changeUnread (fun p u hu => by cases hu; rfl) h
  | push a => exact withReg_changeUnread (fun p u hu => by cases hu; rfl) h
  | jmp a => exact jumpIf_changeUnread h
  | jeq a => exact jumpIf_changeUnread h
  | jne a => exact jumpIf_changeUnread h
  | jlt a => exact jumpIf_changeUnread h
  | jgt a => exact jumpIf_changeUnread h
  | not a => exact aluUnary_changeUnread h
  | inc a => exact aluUnary_changeUnread (op := fun u => u + 1#8) h
  | dec a => exact aluUnary_changeUnread (op := fun u => u - 1#8) h
  | ld a b => exact withRegs_changeUnread (fun p q u hu => by cases hu; rfl) h
  | ldi a imm => exact withReg_changeUnread (fun p u hu => by cases hu; rfl) h
  | st a b => exact withRegs_changeUnread (fun p q u hu => by cases hu; rfl) h
  | cmp a b => exact withRegs_changeUnread (fun p q u hu => by cases hu; rfl) h
  | add a b => exact aluBinary_changeUnread h
  | sub a b => exact aluBinary_changeUnread h
  | mul a b => exact aluBinary_changeUnread h
  | div a b => exact aluDivide_changeUnread h
  | mod a b => exact aluDivide_changeUnread h
  | or a b => exact aluBinary_changeUnread h
  | xor a b => exact aluBinary_changeUnread h
  | and a b => exact aluBinary_changeUnread h

end

theorem exec_setIr {i : Instr} {s t : State} (v : Byte) (h : exec i s = .next t) :
    exec i { s with ir := v } = .next { t with ir := v } :=
  exec_changeUnread (f := fun _ => v) (g := id) (o := []) (fun _ => rfl) h

theorem exec_setIe {i : Instr} {s t : State} (b : Bool) (hi : i ≠ .iret) (h : exec i s = .next t) :
    exec i { s with ie := b } = .next { t with ie := b } :=
  exec_changeUnread (f := id) (g := fun _ => b) (o := []) (fun he => absurd he hi) h

theorem exec_iret_setIe (s : State) (b : Bool) : exec .iret { s with ie := b } = exec .iret s := by
  simp only [exec, execIret, State.interruptReturn_eq]

/-! ### IE and IR over a step -/

/-- What a step does to IE (R30): nothing, or an entry clears it, or an executed IRET sets it. -/
theorem step_ie_cases {s t : State} (h : step s = .next t) :
    t.ie = s.ie ∨ ((∃ i, TakesLine s i) ∧ t.ie = false) ∨ (RunsInstruction s ∧ FetchesInstr s .iret ∧ t.ie = true) := by
  rcases step_cases h with ⟨c, -, rfl⟩ | ⟨i, hr, hl, rfl⟩ | ⟨hr, hl, i, hd, he⟩ | ⟨-, -, b, -, rfl⟩
  · exact .inl rfl
  · exact .inr (.inl ⟨⟨i, hr, hl⟩, s.interruptEntry_ie i⟩)
  · by_cases hi : i = .iret
    · subst hi
      exact .inr (.inr ⟨⟨hr, hl⟩, fetchesInstr_iff.mpr hd, exec_iret_arms he⟩)
    · exact .inl ((exec_keeps_ie hi he).trans s.fetched_ie)
  · exact .inl rfl

theorem step_masks_of_takesLine {s t : State} {i : Fin 8} (hl : TakesLine s i) (h : step s = .next t) : t.ie = false := by
  rw [step_of_takesLine hl] at h
  cases h
  exact s.interruptEntry_ie i

theorem step_arms_of_iret {s t : State} (hr : RunsInstruction s) (hf : FetchesInstr s .iret) (h : step s = .next t) :
    t.ie = true :=
  exec_iret_arms ((step_of_fetchesInstr hr hf).symm.trans h)

/-- A line whose bit of IM is 0 is not taken (R206). -/
theorem not_takesLine_of_masked {s : State} {i : Fin 8} (h : (s.getReg 5).getLsbD i.val = false) : ¬ TakesLine s i := by
  rintro ⟨-, hl⟩
  obtain ⟨-, hbit, -⟩ := (s.takenLine_some i).mp hl
  rw [BitVec.getLsbD_and, ← State.getReg_eq, h, Bool.and_false] at hbit
  cases hbit

theorem step_ir_of_runsInstruction {s t : State} (hr : RunsInstruction s) (h : step s = .next t) :
    t.ir = s.readMem s.pc := by
  rcases step_of_runsInstruction hr h with ⟨i, -, he⟩ | ⟨c, rfl⟩
  · exact exec_keeps_ir he
  · rfl

theorem step_ir_of_takesLine {s t : State} {i : Fin 8} (hl : TakesLine s i) (h : step s = .next t) : t.ir = s.ir := by
  rw [step_of_takesLine hl] at h
  cases h
  exact s.interruptEntry_ir i

theorem step_ir_of_halted {s t : State} {c : HaltCause} (hc : s.run = .halted c) (h : step s = .next t) : t.ir = s.ir := by
  rw [step_halted s c hc] at h
  cases h
  rfl

/-- The operand count is the two high bits of the opcode byte (R26, R71). -/
theorem operandCount_eq_high_bits (op : Byte) : operandCount op = (op >>> 6).toNat := by
  simp [operandCount, Nat.shiftRight_eq_div_pow]

/-- Settles O48: `step_ie_cases` says every change of IE over a step; `exec_setIe` and `exec_iret_setIe` that none reads it. -/
theorem onlyEntryMasksAndOnlyIretArms : Obligations.OnlyEntryMasksAndOnlyIretArms := by
  refine ⟨fun s t h => ⟨fun hs ht => ?_, fun hs ht => ?_, fun ⟨i, hl⟩ => step_masks_of_takesLine hl h,
    fun hr hf => step_arms_of_iret hr hf h⟩, rfl, fun _ => rfl, fun i s t b => exec_setIe b, exec_iret_setIe,
    fun s i => not_takesLine_of_masked⟩
  · rcases step_ie_cases h with hk | ⟨hl, -⟩ | ⟨-, -, ha⟩
    · simp [hk, hs] at ht
    · exact hl
    · simp [ha] at ht
  · rcases step_ie_cases h with hk | ⟨-, hm⟩ | ⟨hr, hf, -⟩
    · simp [hk, hs] at ht
    · simp [hm] at ht
    · exact ⟨hr, hf⟩

/-- Settles O52: IR over each kind of step, and `exec_setIr` for an instruction that is given another IR. -/
theorem irIsWrittenByFetchAloneAndNeverRead : Obligations.IrIsWrittenByFetchAloneAndNeverRead :=
  ⟨fun _ _ h => ⟨fun hr => step_ir_of_runsInstruction hr h, fun ⟨_, hl⟩ => step_ir_of_takesLine hl h,
      fun _ hc => step_ir_of_halted hc h⟩,
    fun _ _ _ v => exec_setIr v, operandCount_eq_high_bits, fun _ => rfl⟩

end Sys2Proof.Machine

/-! Proofs for 40_dispatch.md: what a step can do to RUN, and the atomicity of a failing step (R100). -/

namespace Sys2Proof.Machine

/-! ### RUN after an instruction and after a step -/

/-- Execute leaves RUN alone, is HLT, or raises an error and changes nothing else (R171, R200). -/
theorem exec_run_cases {i : Instr} {s t : State} (h : exec i s = .next t) :
    t.run = s.run ∨ (i = .hlt ∧ t.run = .halted .hlt) ∨ ∃ c, t = s.raise c := by
  cases exec_effect h with
  | invalidRegister | divByZero | modByZero => exact .inr (.inr ⟨_, rfl⟩)
  | hlt => exact .inr (.inl ⟨rfl, rfl⟩)
  | iret => exact .inl s.interruptReturn_run
  | cmp | st | push | call | int | prn | pra | regs => exact .inl rfl

theorem State.interruptEntry_run (s : State) (i : Fin 8) : (s.interruptEntry i).run = s.run := by
  rw [State.interruptEntry_eq]

/-- A step leaves RUN alone (an entry always does), runs HLT, or raises an error on the state the fetch left (R92, R100). -/
theorem step_run_cases {s t : State} (h : step s = .next t) :
    t.run = s.run ∨ (RunsInstruction s ∧ FetchesInstr s .hlt ∧ t.run = .halted .hlt) ∨
      (RunsInstruction s ∧ ∃ c, t = s.fetched.raise c) := by
  rcases step_cases h with ⟨c, -, rfl⟩ | ⟨i, -, -, rfl⟩ | ⟨hr, hl, i, hd, he⟩ | ⟨hr, hl, b, -, rfl⟩
  · exact .inl rfl
  · exact .inl (s.interruptEntry_run i)
  · rcases exec_run_cases he with hk | ⟨rfl, ht⟩ | hc
    · exact .inl (hk.trans s.fetched_run)
    · exact .inr (.inl ⟨⟨hr, hl⟩, fetchesInstr_iff.mpr hd, ht⟩)
    · exact .inr (.inr ⟨⟨hr, hl⟩, hc⟩)
  · exact .inr (.inr ⟨⟨hr, hl⟩, _, rfl⟩)

/-- Settles O46: of the ways a step can change RUN (`step_run_cases`), only a raised error halts with a cause other than Hlt. -/
theorem failingStepCommitsOnlyIrAndRun : Obligations.FailingStepCommitsOnlyIrAndRun := by
  intro s t c hrun h ht hc
  rcases step_run_cases h with hk | ⟨-, -, hh⟩ | ⟨-, d, rfl⟩
  · simp [hk, hrun] at ht
  · rw [hh] at ht
    cases ht
    exact absurd rfl hc
  · cases ht
    rfl

end Sys2Proof.Machine

/-! Proofs for 41_alu.md: the operand check of formats R and RR (R95), the instructions that write one register and advance the PC
(R98), and the ALU instructions that write their destination (R110). -/

namespace Sys2Proof.Machine

/-! ### The operand check of an instruction -/

/-- Format R: an instruction whose meaning starts with the operand check has it (R95). -/
theorem checksR_of_withReg {mk : Byte → Instr} (h : ∀ a s, ∃ k, exec (mk a) s = withReg a s k) : ChecksR mk := by
  intro a s ha
  obtain ⟨k, hk⟩ := h a s
  exact hk.trans (withReg_illegal a s k ha)

/-- Format RR: the same for two operands, the first checked first (R95, R97). -/
theorem checksRR_of_withRegs {mk : Byte → Byte → Instr} (h : ∀ a b s, ∃ k, exec (mk a b) s = withRegs a b s k) :
    ChecksRR mk := by
  intro a b s
  obtain ⟨k, hk⟩ := h a b s
  refine ⟨fun ha => hk.trans (withRegs_illegal_first a b s k ha), fun ha hb => hk.trans ?_⟩
  rw [← regByte_of_lt a ha]
  exact withRegs_illegal_second _ b s k hb

/-! ### Writing one register -/

/-- The default advance is by the length of the instruction, modulo 256 (R25, R98). -/
theorem pcPlus_of_pc_eq {n : Nat} {s t : State} (h : t.pc = s.pc + BitVec.ofNat 8 n) : PcPlus n s t := by
  rw [PcPlus, h, BitVec.toNat_add, BitVec.toNat_ofNat, Nat.add_mod_mod]

/-- An instruction that writes `w` to register `d` and advances past its `n` operand bytes changes nothing else. -/
theorem putsRegister_of_setReg {i : Instr} {s : State} {d : Fin 8} {w : Byte} {n v : Nat}
    (h : exec i s = .next ((s.setReg d w).resolvePc n none)) (hv : w.toNat = v) : PutsRegister i s d v (n + 1) := by
  have hd : ((s.setReg d w).resolvePc n none).getReg d = w := by simp
  have hother : KeepsRegsBut [d] s ((s.setReg d w).resolvePc n none) := fun k hk => by
    simp [List.mem_singleton.not.mp hk]
  exact ⟨_, h, (congrArg BitVec.toNat hd).trans hv, pcPlus_of_pc_eq rfl, hother, rfl, ⟨rfl, rfl, rfl, rfl⟩, rfl, fun _ _ => rfl⟩

/-! ### ALU instructions of two operands and of one -/

theorem putsRegister_of_aluBinary {i : Instr} {f : Byte → Byte → Byte} {p q : Fin 8} {s : State} {v : Nat}
    (h : exec i s = aluBinary f (regByte p) (regByte q) s) (hv : (f (s.getReg p) (s.getReg q)).toNat = v) :
    PutsRegister i s p v 3 :=
  putsRegister_of_setReg (h.trans (withRegs_regByte p q s _)) hv

theorem putsRegister_of_aluUnary {i : Instr} {f : Byte → Byte} {p : Fin 8} {s : State} {v : Nat}
    (h : exec i s = aluUnary f (regByte p) s) (hv : (f (s.getReg p)).toNat = v) : PutsRegister i s p v 2 :=
  putsRegister_of_setReg (h.trans (withReg_regByte p s _)) hv

/-- Settles O1: ADD is the binary ALU operation `+`, whose `toNat` is the sum modulo 2^8. -/
theorem addGivesSumMod256 : Obligations.AddGivesSumMod256 :=
  ⟨fun _ _ => ⟨rfl, rfl⟩, checksRR_of_withRegs fun _ _ _ => ⟨_, rfl⟩,
    fun _ _ _ => putsRegister_of_aluBinary rfl (BitVec.toNat_add _ _)⟩

/-- Settles O2: SUB is the binary ALU operation `-`; the minuend and the complement of the subtrahend change places in the sum. -/
theorem subGivesDifferenceMod256 : Obligations.SubGivesDifferenceMod256 := by
  refine ⟨fun _ _ => ⟨rfl, rfl⟩, checksRR_of_withRegs fun _ _ _ => ⟨_, rfl⟩,
    fun i j s => putsRegister_of_aluBinary rfl ?_⟩
  have hj : (s.getReg j).toNat < 256 := (s.getReg j).isLt
  rw [BitVec.toNat_sub]
  omega

/-- Settles O3: MUL is the binary ALU operation `*`, whose `toNat` is the product modulo 2^8. -/
theorem mulGivesLowByteOfProduct : Obligations.MulGivesLowByteOfProduct :=
  ⟨fun _ _ => ⟨rfl, rfl⟩, checksRR_of_withRegs fun _ _ _ => ⟨_, rfl⟩,
    fun _ _ _ => putsRegister_of_aluBinary rfl (BitVec.toNat_mul _ _)⟩

/-- Settles O6: INC is the unary ALU operation that adds 1. -/
theorem incAddsOneMod256 : Obligations.IncAddsOneMod256 :=
  ⟨fun _ => ⟨rfl, fun _ => rfl⟩, checksR_of_withReg fun _ _ => ⟨_, rfl⟩,
    fun _ _ => putsRegister_of_aluUnary (f := fun u => u + 1#8) rfl (BitVec.toNat_add _ 1#8)⟩

/-- Settles O7: DEC is the unary ALU operation that subtracts 1, which modulo 256 is to add 255. -/
theorem decSubtractsOneMod256 : Obligations.DecSubtractsOneMod256 := by
  refine ⟨fun _ => ⟨rfl, fun _ => rfl⟩, checksR_of_withReg fun _ _ => ⟨_, rfl⟩,
    fun _ _ => putsRegister_of_aluUnary (f := fun u => u - 1#8) rfl ?_⟩
  rw [BitVec.toNat_sub, Nat.add_comm]
  rfl

/-- Settles O8: AND is the binary ALU operation `&&&`, which `toNat` carries to the numbers. -/
theorem andIsBitwise : Obligations.AndIsBitwise :=
  ⟨fun _ _ => ⟨rfl, rfl⟩, checksRR_of_withRegs fun _ _ _ => ⟨_, rfl⟩,
    fun _ _ _ => putsRegister_of_aluBinary rfl (BitVec.toNat_and _ _)⟩

/-- Settles O9: OR is the binary ALU operation `|||`, which `toNat` carries to the numbers. -/
theorem orIsBitwise : Obligations.OrIsBitwise :=
  ⟨fun _ _ => ⟨rfl, rfl⟩, checksRR_of_withRegs fun _ _ _ => ⟨_, rfl⟩,
    fun _ _ _ => putsRegister_of_aluBinary rfl (BitVec.toNat_or _ _)⟩

/-- Settles O10: XOR is the binary ALU operation `^^^`, which `toNat` carries to the numbers. -/
theorem xorIsBitwise : Obligations.XorIsBitwise :=
  ⟨fun _ _ => ⟨rfl, rfl⟩, checksRR_of_withRegs fun _ _ _ => ⟨_, rfl⟩,
    fun _ _ _ => putsRegister_of_aluBinary rfl (BitVec.toNat_xor _ _)⟩

/-- Settles O11: NOT is the unary ALU operation `~~~`, the distance from the largest byte. -/
theorem notComplementsEightBits : Obligations.NotComplementsEightBits :=
  ⟨fun _ => ⟨rfl, fun _ => rfl⟩, checksR_of_withReg fun _ _ => ⟨_, rfl⟩,
    fun _ _ => putsRegister_of_aluUnary rfl BitVec.toNat_not⟩

end Sys2Proof.Machine

/-! Proofs for 42_data_move.md: LDI (R130), and the line an armed engine takes in its next step (R206). -/

namespace Sys2Proof.Machine

/-- A running, armed engine with a pending line that its mask enables takes such a line (R206). -/
theorem takesLine_of_pending {s : State} (hrun : s.run = .running) (hie : s.ie = true) (hp : s.is &&& s.x.get 5 ≠ 0#8) :
    ∃ k, TakesLine s k ∧ (s.is &&& s.x.get 5).getLsbD k.val = true := by
  have hsome : s.takenLine ≠ none := fun hnone => by
    rcases s.takenLine_none.mp hnone with hmasked | hnothing
    · exact Bool.false_ne_true (hmasked.symm.trans hie)
    · exact hp hnothing
  obtain ⟨k, hk⟩ := Option.ne_none_iff_exists'.mp hsome
  obtain ⟨-, hbit, -⟩ := (s.takenLine_some k).mp hk
  exact ⟨k, ⟨hrun, hk⟩, hbit⟩

/-- LDI with a legal register completes, whatever the immediate (R130). -/
theorem exec_ldi_regByte (i : Fin 8) (imm : Byte) (s : State) :
    exec (.ldi (regByte i) imm) s = .next ((s.setReg i imm).resolvePc 2 none) :=
  withReg_regByte i s _

/-- Settles O13: LDI is the write of one register after the check of one operand; written to R5, the immediate is the mask that the
interrupt check of the next step reads. -/
theorem ldiLoadsImmediate : Obligations.LdiLoadsImmediate := by
  refine ⟨fun _ _ => ⟨rfl, rfl⟩, fun a imm => checksR_of_withReg (mk := (.ldi · imm)) (fun _ _ => ⟨_, rfl⟩) a,
    fun i imm s => putsRegister_of_setReg (exec_ldi_regByte i imm s) rfl, fun imm s hrun hie hp => ?_⟩
  obtain ⟨k, hk, hbit⟩ := takesLine_of_pending (s := (s.setReg 5 imm).resolvePc 2 none) hrun hie hp
  exact ⟨_, k, exec_ldi_regByte 5 imm s, hk, hbit⟩

end Sys2Proof.Machine

/-! Proofs for 60_exceptions.md: a step whose opcode byte has no dispatch entry (R94, R202). -/

namespace Sys2Proof.Machine

/-- The look-up of a byte that decodes to no instruction answers that byte as unknown (R94). -/
theorem State.decodeNext_of_unknownOpcode {s : State} (h : ∀ x y i, decode (s.readMem s.pc) x y ≠ .ok i) :
    s.decodeNext = .error (.unknownInstruction (s.readMem s.pc)) := by
  rw [State.decodeNext_eq]
  rcases decode_cases (s.readMem s.pc) (s.readMem (s.pc + 1#8)) (s.readMem (s.pc + 2#8)) with ⟨i, hi, -⟩ | he
  · exact absurd hi (h _ _ i)
  · exact he

/-- A step that looks up an unknown opcode raises UnknownInstruction with the byte and the PC on the state the fetch left (R202). -/
theorem step_of_unknownInstruction {s : State} {b : Byte} (hr : RunsInstruction s)
    (hd : s.decodeNext = .error (.unknownInstruction b)) :
    step s = .next (s.fetched.raise (.unknownInstruction b s.pc)) := by
  rw [step_instruction s hr.1 hr.2, State.instructionStep, hd]

/-- Settles O36: the look-up answers the fetched byte as unknown, and the raise on the fetched state writes IR and RUN alone. -/
theorem unknownOpcodeHalts : Obligations.UnknownOpcodeHalts :=
  fun _ hr h => step_of_unknownInstruction hr (State.decodeNext_of_unknownOpcode h)

end Sys2Proof.Machine

/-! Proofs for 30_encoding.md: the look-up and the encoding are inverse (R70 to R75), the opcode bytes with no entry (R77), and the step
that runs what the bytes at PC encode (40_dispatch.md R90 to R94). -/

namespace Sys2Proof

/-- The shape of every encoding, from the formats Z, R and RR (R71, R80). -/
theorem encode_shape (i : Instr) : Laws.Shape.Statement i := by
  cases i with
  | nop | hlt | ret | iret => exact Laws.Shape.of_parts _ 0 rfl rfl rfl (by decide)
  | pra | prn | call | int | pop | push | jmp | jeq | jne | jlt | jgt | not | inc | dec =>
    exact Laws.Shape.of_parts _ 1 rfl rfl (by simp [operandCount, opcodeOf]) (by decide)
  | ld | ldi | st | cmp | add | sub | mul | div | mod | or | xor | and =>
    exact Laws.Shape.of_parts _ 2 rfl rfl (by simp [operandCount, opcodeOf]) (by decide)

theorem operandCount_opcodeOf (i : Instr) : operandCount (opcodeOf i) = (operandBytes i).length :=
  (Nat.succ.inj (encode_shape i).1).symm

/-- At its own opcode byte an instruction is looked up exactly when its operand bytes come next; a format ignores the bytes it lacks. -/
theorem decode_opcodeOf_iff {i : Instr} {a b : Byte} :
    decode (opcodeOf i) a b = .ok i ↔ operandBytes i = [a, b].take (operandBytes i).length := by
  cases i with
  | nop | hlt | ret | iret => exact ⟨fun _ => rfl, fun _ => rfl⟩
  | _ => exact ⟨fun h => by cases h; rfl, fun h => by cases h; rfl⟩

/-- Decode and encode are inverse: three bytes are looked up as `i` exactly when those its format has are `encode i`. -/
theorem decode_eq_ok_iff {op a b : Byte} {i : Instr} :
    decode op a b = .ok i ↔ encode i = [op, a, b].take (operandCount op + 1) := by
  constructor
  · intro h
    obtain rfl := decode_ok_opcode h
    rw [operandCount_opcodeOf]
    exact congrArg (opcodeOf i :: ·) (decode_opcodeOf_iff.mp h)
  · intro h
    obtain ⟨rfl, hops⟩ := List.cons_eq_cons.mp h
    rw [operandCount_opcodeOf] at hops
    exact decode_opcodeOf_iff.mpr hops

/-- Settles O56: one direction of `decode_eq_ok_iff`. -/
theorem decodedBytesAreTheEncoding : Obligations.DecodedBytesAreTheEncoding :=
  fun _ _ _ _ h => decode_eq_ok_iff.mp h

/-- Settles O57: each word is a row of the dispatch table. -/
theorem sampleWordsDecode : Obligations.SampleWordsDecode :=
  ⟨rfl, rfl, rfl, rfl, rfl, rfl, rfl, rfl, rfl, rfl, rfl, rfl⟩

/-! ### The opcode bytes with no entry -/

theorem opcodeOf_mem_opcodeValues (i : Instr) : opcodeOf i ∈ Machine.opcodeValues := by
  cases i <;> simp [opcodeOf, Machine.opcodeValues]

/-- A byte of the table is some instruction's opcode byte, so with its operands in place it is looked up. -/
theorem decode_of_mem_opcodeValues {op : Byte} (h : op ∈ Machine.opcodeValues) (a b : Byte) : ∃ i, decode op a b = .ok i := by
  unfold Machine.opcodeValues at h
  fin_cases h <;> exact ⟨_, rfl⟩

theorem decode_eq_error_iff (op a b : Byte) :
    decode op a b = .error (.unknownInstruction op) ↔ op ∉ Machine.opcodeValues := by
  constructor
  · intro he hm
    obtain ⟨i, hi⟩ := decode_of_mem_opcodeValues hm a b
    rw [he] at hi
    cases hi
  · intro hm
    rcases decode_cases op a b with ⟨i, -, rfl⟩ | he
    · exact absurd (opcodeOf_mem_opcodeValues i) hm
    · exact he

/-- What the look-up calls unknown is the opcode byte itself, and it is unknown with any operand bytes (R94, R202). -/
theorem decode_error_any {op a b c : Byte} (h : decode op a b = .error (.unknownInstruction c)) :
    c = op ∧ ∀ x y, decode op x y = .error (.unknownInstruction op) := by
  rcases decode_cases op a b with ⟨i, hi, -⟩ | he
  · rw [hi] at h
    cases h
  · have hm := (decode_eq_error_iff op a b).mp he
    rw [he] at h
    cases h
    exact ⟨rfl, fun x y => (decode_eq_error_iff op x y).mpr hm⟩

theorem opcodeValues_lt : ∀ v ∈ Machine.opcodeValues, v < 0xC0#8 := by decide

/-- Settles O37: `decode_eq_error_iff`; the table has no byte from 0xC0 up; and the count. -/
theorem illegalOpcodesAreTheOther226 : Obligations.IllegalOpcodesAreTheOther226 :=
  ⟨decode_eq_error_iff,
    fun op x y hop => (decode_eq_error_iff op x y).mpr fun hm => BitVec.not_lt.mpr hop (opcodeValues_lt op hm), by decide +kernel⟩

end Sys2Proof

namespace Sys2Proof.Machine

/-- Bytes at PC and upward that encode an instruction are its whole encoding, as the fetch reads it (R92, R93). -/
theorem encode_eq_bytes_at_pc {i : Instr} {s : State}
    (h : ∀ k (h : k < (encode i).length), s.readMem (s.pc + BitVec.ofNat 8 k) = (encode i)[k]) :
    encode i = [s.readMem s.pc, s.readMem (s.pc + 1#8), s.readMem (s.pc + 2#8)].take (operandCount (s.readMem s.pc) + 1) := by
  obtain ⟨hlen, hcount⟩ := encode_shape i
  have hop : s.readMem s.pc = opcodeOf i := by simpa [encode] using h 0 (by omega)
  refine List.ext_getElem (by simp only [hop, hlen, List.length_take, List.length_cons, List.length_nil]; omega) fun k hk _ => ?_
  have hk3 : k = 0 ∨ k = 1 ∨ k = 2 := by omega
  rw [← h k hk]
  rcases hk3 with rfl | rfl | rfl <;> simp

/-- Settles O55: the bytes at PC are the encoding (`encode_eq_bytes_at_pc`), so `decode_eq_ok_iff` looks the instruction up, and a
step that takes no interrupt executes it. -/
theorem encodedInstructionIsFetchedAndRun : Obligations.EncodedInstructionIsFetchedAndRun := by
  intro i s h
  have hf : FetchesInstr s i := decode_eq_ok_iff.mpr (encode_eq_bytes_at_pc h)
  have hop : s.readMem s.pc = opcodeOf i := decode_ok_opcode hf
  refine ⟨fetchesInstr_iff.mp hf, ?_, fun hr => ?_⟩
  · rw [hop]
    exact (encode_shape i).1
  · rw [step_of_fetchesInstr hr hf, ← hop]
    rfl

/-- Settles O35: the fetch writes IR and the looked-up instruction is executed. -/
theorem stepRunsTheDecodedInstruction : Obligations.StepRunsTheDecodedInstruction :=
  fun _ _ hr hf => step_of_fetchesInstr hr hf

end Sys2Proof.Machine

/-! Proofs for 60_exceptions.md section 1: the invariant (R200 to R204), the totality of the step, and the first illegal operand. -/

namespace Sys2Proof.Machine

/-! ### Memory stays in canonical form -/

theorem State.pushAll_mem_wf {s : State} (l : List Byte) (h : s.mem.wf) : (s.pushAll l).mem.wf := by
  induction l generalizing s with
  | nil => exact h
  | cons v l ih => exact ih (Memory.wf_write s.mem _ v h)

theorem exec_keeps_mem_wf {i : Instr} {s t : State} (hm : s.mem.wf) (h : exec i s = .next t) : t.mem.wf := by
  cases exec_effect h with
  | st | push | call => exact Memory.wf_write _ _ _ hm
  | iret => rwa [State.interruptReturn_mem]
  | invalidRegister | divByZero | modByZero | hlt | cmp | int | prn | pra | regs => exact hm

theorem step_keeps_mem_wf {s t : State} (hm : s.mem.wf) (h : step s = .next t) : t.mem.wf := by
  rcases step_cases h with ⟨c, -, rfl⟩ | ⟨i, -, -, rfl⟩ | ⟨-, -, i, -, he⟩ | ⟨-, -, b, -, rfl⟩
  · exact hm
  · exact State.pushAll_mem_wf (s := { s with is := s.is &&& ~~~(lineBit i) }) s.frame hm
  · exact exec_keeps_mem_wf (s := s.fetched) hm he
  · exact hm

/-! ### A halt cause agrees with IR and PC -/

theorem haltCoherent_of_running {s : State} (h : s.run = .running) : HaltCoherent s := by
  rw [HaltCoherent, h]
  trivial

/-- A running engine whose IR is the opcode byte of the executed instruction halts, if it does, with a cause that IR explains. -/
theorem exec_haltCoherent {i : Instr} {s t : State} (hrun : s.run = .running) (hir : s.ir = opcodeOf i)
    (h : exec i s = .next t) : HaltCoherent t := by
  cases exec_effect h with
  | invalidRegister i r hr hf => exact ⟨hr, i, hir.symm, List.mem_of_find?_eq_some hf⟩
  | divByZero | modByZero | hlt => exact hir
  | iret => exact haltCoherent_of_running (s.interruptReturn_run.trans hrun)
  | cmp | st | push | call | int | prn | pra | regs => exact haltCoherent_of_running hrun

theorem step_keeps_haltCoherent {s t : State} (hc : HaltCoherent s) (h : step s = .next t) : HaltCoherent t := by
  rcases step_cases h with ⟨c, -, rfl⟩ | ⟨i, hr, -, rfl⟩ | ⟨hr, -, i, hd, he⟩ | ⟨-, -, b, hd, rfl⟩
  · exact hc
  · exact haltCoherent_of_running ((s.interruptEntry_run i).trans hr)
  · exact exec_haltCoherent (s := s.fetched) hr (decode_ok_opcode hd) he
  · obtain ⟨rfl, hunknown⟩ := decode_error_any hd
    exact ⟨rfl, rfl, hunknown⟩

/-- Settles O43: the two halves of `Inv`, each kept by every kind of step. -/
theorem everyStepKeepsTheInvariant : Obligations.EveryStepKeepsTheInvariant :=
  fun _ _ ⟨hm, hc⟩ h => ⟨step_keeps_mem_wf hm h, step_keeps_haltCoherent hc h⟩

/-- Settles O44: after reset Memory lists no cell and the engine runs. -/
theorem resetMeetsTheInvariant : Obligations.ResetMeetsTheInvariant :=
  ⟨⟨.nil, List.forall_mem_nil _⟩, haltCoherent_of_running rfl⟩

/-! ### Every step answers a next state -/

theorem aluDivide_total (op : DivOp) (f : Byte → Byte → Byte) (a b : Byte) (s : State) :
    ∃ t, aluDivide op f a b s = .next t :=
  withRegs_total a b s _ fun i j => by split <;> exact ⟨_, rfl⟩

theorem exec_total (i : Instr) (s : State) : ∃ t, exec i s = .next t := by
  cases i with
  | nop | hlt | ret | iret => exact ⟨_, rfl⟩
  | pra a | prn a | call a | int a | pop a | push a | jmp a | jeq a | jne a | jlt a | jgt a | not a | inc a | dec a | ldi a =>
    exact withReg_total a s _ fun _ => ⟨_, rfl⟩
  | ld a b | st a b | cmp a b | add a b | sub a b | mul a b | or a b | xor a b | and a b =>
    exact withRegs_total a b s _ fun _ _ => ⟨_, rfl⟩
  | div a b | mod a b => exact aluDivide_total _ _ a b s

theorem State.instructionStep_total (s : State) : ∃ t, s.instructionStep = .next t := by
  unfold State.instructionStep
  split
  · exact exec_total _ _
  · exact ⟨_, rfl⟩

theorem step_total (s : State) : ∃ t, step s = .next t := by
  rcases hr : s.run with _ | c
  · rcases hl : s.takenLine with _ | i
    · rw [step_instruction s hr hl]
      exact s.instructionStep_total
    · exact ⟨_, step_taken s i hr hl⟩
  · exact ⟨s, step_halted s c hr⟩

/-- Settles O45: `step_total` and `exec_total`. -/
theorem everyStepAnswersANextState : Obligations.EveryStepAnswersANextState := ⟨step_total, exec_total⟩

/-! ### InvalidRegister -/

/-- An ill-formed instruction can do nothing but raise: every other effect is of a well-formed instruction. -/
theorem raises_of_not_wellFormed {i : Instr} (s : State) (hw : ¬ WellFormed i) :
    ∃ r, i.registerOperands.find? (fun r => 8 ≤ r.toNat) = some r ∧ Raises i s (.invalidRegister r) := by
  obtain ⟨t, ht⟩ := exec_total i s
  cases exec_effect ht with
  | invalidRegister i r hr hf => exact ⟨r, hf, ht⟩
  | hlt | iret => exact absurd rfl hw
  | push | call | int | prn | pra => exact absurd (wellFormed_of_one rfl) hw
  | divByZero | modByZero | cmp | st => exact absurd (wellFormed_of_two rfl) hw
  | regs i hwf => exact absurd hwf hw

theorem not_mem_registerOperands {i : Instr} {r : Byte} (hw : WellFormed i) (hr : 8 ≤ r.toNat) : r ∉ i.registerOperands :=
  fun hm => absurd (of_decide_eq_true (List.all_eq_true.mp hw r hm)) (by omega)

/-- A well-formed instruction leaves an InvalidRegister halt only where there was one (R203). -/
theorem exec_keeps_invalidRegister {i : Instr} {s t : State} {r : Byte} (hw : WellFormed i) (h : exec i s = .next t)
    (ht : t.run = .halted (.invalidRegister r)) : s.run = .halted (.invalidRegister r) := by
  cases exec_effect h with
  | invalidRegister i q hq hf => exact absurd (List.mem_of_find?_eq_some hf) (not_mem_registerOperands hw hq)
  | divByZero | modByZero | hlt => cases ht
  | iret => rwa [State.interruptReturn_run] at ht
  | cmp | st | push | call | int | prn | pra | regs => exact ht

/-- Settles O47: `raises_of_not_wellFormed` and `exec_keeps_invalidRegister`. -/
theorem firstIllegalOperandIsReported : Obligations.FirstIllegalOperandIsReported :=
  fun _ s => ⟨raises_of_not_wellFormed s, fun hw _ _ h ht => exec_keeps_invalidRegister hw h ht⟩

end Sys2Proof.Machine

/-! Proofs for 20_memory.md section 1: the canonical form is faithful (R50), and the writers of Memory (R54). -/

namespace Sys2Proof.Machine

/-! ### Equal contents are equal lists -/

/-- With rising addresses, the cell found at an address is the one the list holds. -/
theorem Memory.lookup_eq_some_iff {m : Memory} (hp : m.Pairwise (fun c d => c.1 < d.1)) (c : Host.Cell) :
    m.lookup c.1 = some c.2 ↔ c ∈ m := by
  induction m with
  | nil => simp
  | cons d m ih =>
    obtain ⟨hd, hm⟩ := List.pairwise_cons.mp hp
    rw [Memory.lookup_cell, List.mem_cons]
    by_cases hk : c.1 = d.1
    · have hc : c ∉ m := fun h => (hd c h).ne hk.symm
      simp [hk, hc, Prod.ext_iff, eq_comm]
    · simp [hk, ih hm, Prod.ext_iff]

/-- The cells of a canonical Memory are its bytes that differ from the unlisted one: its contents determine it. -/
theorem Memory.mem_iff_read {m : Memory} (hm : m.wf) (c : Host.Cell) :
    c ∈ m ↔ (c.1 < Config.memSize ∧ c.2 ≠ Config.unlistedByte) ∧ m.read (BitVec.ofNat 8 c.1) = c.2 := by
  obtain ⟨hp, hc⟩ := hm
  have hread : c.1 < Config.memSize → m.read (BitVec.ofNat 8 c.1) = (m.lookup c.1).getD Config.unlistedByte := fun h => by
    rw [Memory.read, BitVec.toNat_ofNat, Nat.mod_eq_of_lt (b := 2 ^ 8) h]
  rw [← Memory.lookup_eq_some_iff hp]
  constructor
  · intro h
    obtain ⟨hlt, hne⟩ := hc c ((Memory.lookup_eq_some_iff hp c).mp h)
    exact ⟨⟨hlt, hne⟩, by rw [hread hlt, h, Option.getD_some]⟩
  · rintro ⟨⟨hlt, hne⟩, hv⟩
    rw [hread hlt] at hv
    rcases hl : m.lookup c.1 with _ | v
    · rw [hl] at hv
      exact absurd hv.symm hne
    · rw [hl] at hv
      exact congrArg some hv

/-- Settles O32: the two lists have the same cells (`Memory.mem_iff_read`), and addresses that rise fix the order. -/
theorem canonicalMemoriesThatReadAlikeAreEqual : Obligations.CanonicalMemoriesThatReadAlikeAreEqual := by
  intro m m' hm hm' h
  have hnodup : ∀ {l : Memory}, l.Pairwise (fun c d => c.1 < d.1) → l.Nodup :=
    fun hl => hl.imp fun hlt => ne_of_apply_ne Prod.fst hlt.ne
  have hperm : m.Perm m' := (List.perm_ext_iff_of_nodup (hnodup hm.1) (hnodup hm'.1)).mpr fun c => by
    rw [Memory.mem_iff_read hm, Memory.mem_iff_read hm', h]
  exact hperm.eq_of_pairwise (fun _ _ _ _ hlt hgt => absurd hgt hlt.asymm) hm.1 hm'.1

/-! ### What an entry does to Memory -/

/-- The nine bytes of the frame, each at its own address (R209). -/
theorem State.interruptEntry_frame (s : State) (i : Fin 8) :
    (s.interruptEntry i).readMem (s.getReg 7 - 1#8) = s.pc ∧ (s.interruptEntry i).readMem (s.getReg 7 - 2#8) = s.fl ∧
    (s.interruptEntry i).readMem (s.getReg 7 - 3#8) = s.getReg 0 ∧ (s.interruptEntry i).readMem (s.getReg 7 - 4#8) = s.getReg 1 ∧
    (s.interruptEntry i).readMem (s.getReg 7 - 5#8) = s.getReg 2 ∧ (s.interruptEntry i).readMem (s.getReg 7 - 6#8) = s.getReg 3 ∧
    (s.interruptEntry i).readMem (s.getReg 7 - 7#8) = s.getReg 4 ∧ (s.interruptEntry i).readMem (s.getReg 7 - 8#8) = s.getReg 5 ∧
    (s.interruptEntry i).readMem (s.getReg 7 - 9#8) = s.getReg 6 := by
  simp [State.interruptEntry_eq, State.frameMem, Memory.read_write]

theorem State.interruptEntry_keepsMemBut (s : State) (i : Fin 8) : KeepsMemBut (frameAddresses s) s (s.interruptEntry i) := by
  intro a ha
  simp only [frameAddresses, List.mem_cons, List.not_mem_nil, or_false, not_or, State.getReg_eq] at ha
  simp [State.interruptEntry_eq, State.frameMem, Memory.read_write, ha]

/-! ### The writers of Memory -/

/-- What an instruction does to Memory: nothing, or the one write of ST, PUSH or CALL. -/
theorem exec_mem_cases {i : Instr} {s t : State} (h : exec i s = .next t) :
    t.mem = s.mem ∨
    (∃ p q, i = .st (regByte p) (regByte q) ∧ t.mem = s.mem.write (s.getReg p) (s.getReg q)) ∨
    ∃ p v, (i = .push (regByte p) ∨ i = .call (regByte p)) ∧ t.mem = s.mem.write (s.getReg 7 - 1#8) v := by
  cases exec_effect h with
  | st p q => exact .inr (.inl ⟨p, q, rfl, rfl⟩)
  | push p => exact .inr (.inr ⟨p, _, .inl rfl, rfl⟩)
  | call p => exact .inr (.inr ⟨p, _, .inr rfl, rfl⟩)
  | iret => exact .inl s.interruptReturn_mem
  | invalidRegister | divByZero | modByZero | hlt | cmp | int | prn | pra | regs => exact .inl rfl

theorem Memory.eq_of_read_write_ne {m : Memory} {a v b : Byte} (h : (m.write a v).read b ≠ m.read b) : b = a :=
  by_contra fun hne => h (Memory.read_write_of_ne m a v b hne)

/-- Settles O51: of the kinds of step, an entry writes its frame alone and an instruction what `exec_mem_cases` says. -/
theorem memoryIsWrittenOnlyByFourAgents : Obligations.MemoryIsWrittenOnlyByFourAgents := by
  intro s t a h ha
  rcases step_cases h with ⟨c, -, rfl⟩ | ⟨i, hr, hl, rfl⟩ | ⟨hr, hl, i, hd, he⟩ | ⟨-, -, b, -, rfl⟩
  · exact absurd rfl ha
  · exact .inl ⟨⟨i, hr, hl⟩, by_contra fun hn => ha (s.interruptEntry_keepsMemBut i a hn)⟩
  · rw [State.readMem_eq, State.readMem_eq] at ha
    refine .inr ⟨⟨hr, hl⟩, ?_⟩
    have hf := fetchesInstr_iff.mpr hd
    rcases exec_mem_cases he with hk | ⟨p, q, rfl, hw⟩ | ⟨p, v, hi, hw⟩
    · exact absurd (congrArg (·.read a) hk) ha
    · rw [hw] at ha
      exact .inl ⟨p, q, hf, Memory.eq_of_read_write_ne ha⟩
    · rw [hw] at ha
      refine .inr ⟨⟨p, ?_⟩, Memory.eq_of_read_write_ne ha⟩
      rcases hi with rfl | rfl
      · exact .inl hf
      · exact .inr hf
  · exact absurd rfl ha

end Sys2Proof.Machine

/-! Proofs for 10_state.md, part 2: the writers of FL, IS and OUT (R27, R29, R33), and that the core never reads OUT. -/

namespace Sys2Proof.Machine

/-! ### FL -/

theorem State.interruptEntry_fl (s : State) (i : Fin 8) : (s.interruptEntry i).fl = s.fl := by
  rw [State.interruptEntry_eq]

theorem exec_fl_cases {i : Instr} {s t : State} (h : exec i s = .next t) :
    t.fl = s.fl ∨ i = .iret ∨ ∃ p q, i = .cmp (regByte p) (regByte q) := by
  cases exec_effect h with
  | iret => exact .inr (.inl rfl)
  | cmp p q => exact .inr (.inr ⟨p, q, rfl⟩)
  | invalidRegister | divByZero | modByZero | hlt | st | push | call | int | prn | pra | regs => exact .inl rfl

/-- Settles O49: an entry and a raised error keep FL, and an instruction does what `exec_fl_cases` says. -/
theorem onlyCmpAndIretChangeFl : Obligations.OnlyCmpAndIretChangeFl := by
  intro s t h hne
  rcases step_cases h with ⟨c, -, rfl⟩ | ⟨i, -, -, rfl⟩ | ⟨hr, hl, i, hd, he⟩ | ⟨-, -, b, -, rfl⟩
  · exact absurd rfl hne
  · exact absurd (s.interruptEntry_fl i) hne
  · have hf := fetchesInstr_iff.mpr hd
    rcases exec_fl_cases he with hk | rfl | ⟨p, q, rfl⟩
    · exact absurd hk hne
    · exact ⟨⟨hr, hl⟩, .inl hf⟩
    · exact ⟨⟨hr, hl⟩, .inr ⟨p, q, hf⟩⟩
  · exact absurd rfl hne

/-! ### IS -/

/-- An entry clears the bit of its own line and keeps the others (R208). -/
theorem State.interruptEntry_is (s : State) (i k : Fin 8) :
    (s.interruptEntry i).is.getLsbD k.val = (s.is.getLsbD k.val && (k != i)) := by
  have hbit : (~~~(lineBit i)).getLsbD k.val = (k != i) := by
    revert i k
    decide
  rw [State.interruptEntry_eq, BitVec.getLsbD_and, hbit]

theorem exec_is_cases {i : Instr} {s t : State} (h : exec i s = .next t) :
    t.is = s.is ∨ ∃ p, i = .int (regByte p) ∧ t.is = s.is ||| intBits (s.getReg p) := by
  cases exec_effect h with
  | int p => exact .inr ⟨p, rfl, rfl⟩
  | iret => exact .inl s.interruptReturn_is
  | invalidRegister | divByZero | modByZero | hlt | cmp | st | push | call | prn | pra | regs => exact .inl rfl

/-- A register value of 0..7 gives the one bit of its own number (R174). -/
theorem intBits_getLsbD {v : Byte} (hv : v.toNat ≤ 7) (k : Fin 8) : (intBits v).getLsbD k.val = (k.val == v.toNat) := by
  rw [intBits_of_le hv, ← BitVec.twoPow_eq, BitVec.getLsbD_twoPow]
  simp [show v.toNat < 8 by omega, eq_comm, beq_eq_decide]

theorem line_of_intBits {v : Byte} {k : Fin 8} (h : (intBits v).getLsbD k.val = true) : v.toNat = k.val ∨ 8 ≤ v.toNat := by
  by_cases hv : v.toNat ≤ 7
  · rw [intBits_getLsbD hv k] at h
    exact .inl (eq_of_beq h).symm
  · exact .inr (by omega)

/-- What a step does to IS: nothing, or an entry clears the bit of its line, or an executed INT ORs its bits. -/
theorem step_is_cases {s t : State} (h : step s = .next t) :
    t.is = s.is ∨ (∃ i, TakesLine s i ∧ t = s.interruptEntry i) ∨
      (RunsInstruction s ∧ ∃ p, FetchesInstr s (.int (regByte p)) ∧ t.is = s.is ||| intBits (s.getReg p)) := by
  rcases step_cases h with ⟨c, -, rfl⟩ | ⟨i, hr, hl, rfl⟩ | ⟨hr, hl, i, hd, he⟩ | ⟨-, -, b, -, rfl⟩
  · exact .inl rfl
  · exact .inr (.inl ⟨i, ⟨hr, hl⟩, rfl⟩)
  · rcases exec_is_cases he with hk | ⟨p, rfl, hbits⟩
    · exact .inl hk
    · exact .inr (.inr ⟨⟨hr, hl⟩, p, fetchesInstr_iff.mpr hd, hbits⟩)
  · exact .inl rfl

/-- Settles O50: by `step_is_cases` a bit falls by its own entry alone, and rises by the bits of INT alone. -/
theorem pendingBitsRiseByIntAndFallByEntry : Obligations.PendingBitsRiseByIntAndFallByEntry := by
  intro s t k h
  rcases step_is_cases h with hk | ⟨i, hl, rfl⟩ | ⟨hr, p, hf, hbits⟩
  · rw [hk]
    exact ⟨fun hs ht => absurd (hs.symm.trans ht) (by decide), fun hs ht => absurd (hs.symm.trans ht) (by decide)⟩
  · rw [State.interruptEntry_is]
    refine ⟨fun hs ht => ?_, fun hs ht => ?_⟩
    · rw [hs, Bool.true_and, bne_eq_false_iff_eq] at ht
      exact ht ▸ hl
    · rw [hs, Bool.false_and] at ht
      cases ht
  · rw [hbits, BitVec.getLsbD_or]
    refine ⟨fun hs ht => ?_, fun hs ht => ?_⟩
    · rw [hs, Bool.true_or] at ht
      cases ht
    · rw [hs, Bool.false_or] at ht
      exact ⟨hr, p, hf, line_of_intBits ht⟩

/-! ### OUT -/

theorem State.interruptEntry_out (s : State) (i : Fin 8) : (s.interruptEntry i).out = s.out := by
  rw [State.interruptEntry_eq]

theorem exec_out_cases {i : Instr} {s t : State} (h : exec i s = .next t) :
    t.out = s.out ∨ ∃ p, (i = .prn (regByte p) ∧ t.out = s.out ++ [.num (s.getReg p)]) ∨
      (i = .pra (regByte p) ∧ t.out = s.out ++ [.chr (s.getReg p)]) := by
  cases exec_effect h with
  | prn p => exact .inr ⟨p, .inl ⟨rfl, rfl⟩⟩
  | pra p => exact .inr ⟨p, .inr ⟨rfl, rfl⟩⟩
  | iret => exact .inl s.interruptReturn_out
  | invalidRegister | divByZero | modByZero | hlt | cmp | st | push | call | int | regs => exact .inl rfl

/-- Settles O54: an entry and a raised error keep OUT, and an instruction does what `exec_out_cases` says. -/
theorem outGrowsOnlyByPrnAndPra : Obligations.OutGrowsOnlyByPrnAndPra := by
  intro s t h
  rcases step_cases h with ⟨c, -, rfl⟩ | ⟨i, -, -, rfl⟩ | ⟨hr, hl, i, hd, he⟩ | ⟨-, -, b, -, rfl⟩
  · exact .inl rfl
  · exact .inl (s.interruptEntry_out i)
  · have hf := fetchesInstr_iff.mpr hd
    rcases exec_out_cases he with hk | ⟨p, ⟨rfl, ho⟩ | ⟨rfl, ho⟩⟩
    · exact .inl hk
    · exact .inr ⟨⟨hr, hl⟩, p, .inl ⟨hf, ho⟩⟩
    · exact .inr ⟨⟨hr, hl⟩, p, .inr ⟨hf, ho⟩⟩
  · exact .inl rfl

/-- An entry neither reads nor writes OUT. -/
theorem State.interruptEntry_prependOut (s : State) (i : Fin 8) (o : List OutEvent) :
    (s.changeUnread id id o).interruptEntry i = (s.interruptEntry i).changeUnread id id o := by
  rw [State.interruptEntry_eq, State.interruptEntry_eq]
  rfl

/-- Events put in front of OUT change nothing else of a step: each kind of step is made as without them. -/
theorem step_prependOut {s t : State} (o : List OutEvent) (h : step s = .next t) :
    step (s.changeUnread id id o) = .next (t.changeUnread id id o) := by
  rcases step_cases h with ⟨c, hc, rfl⟩ | ⟨i, hr, hl, rfl⟩ | ⟨hr, hl, i, hd, he⟩ | ⟨hr, hl, b, hd, rfl⟩
  · exact step_halted _ c hc
  · rw [step_taken (s.changeUnread id id o) i hr hl, State.interruptEntry_prependOut]
  · rw [step_of_fetchesInstr (s := s.changeUnread id id o) ⟨hr, hl⟩ (fetchesInstr_iff.mpr hd)]
    exact exec_changeUnread (f := id) (g := id) (fun _ => rfl) he
  · exact step_of_unknownInstruction (s := s.changeUnread id id o) ⟨hr, hl⟩ hd

/-- Settles O53: `step_prependOut`. -/
theorem outputIsWriteOnly : Obligations.OutputIsWriteOnly := fun _ _ o h => step_prependOut o h

end Sys2Proof.Machine

/-! Proofs for 41_alu.md, part 2: DIV, MOD and CMP (R114, R115, R122). -/

namespace Sys2Proof.Machine

theorem putsRegister_of_aluDivide {i : Instr} {op : DivOp} {f : Byte → Byte → Byte} {p q : Fin 8} {s : State} {v : Nat}
    (h : exec i s = aluDivide op f (regByte p) (regByte q) s) (hz : s.getReg q ≠ 0#8)
    (hv : (f (s.getReg p) (s.getReg q)).toNat = v) : PutsRegister i s p v 3 :=
  putsRegister_of_setReg (h.trans ((withRegs_regByte p q s _).trans (if_neg hz))) hv

theorem raises_of_aluDivide {i : Instr} {op : DivOp} {f : Byte → Byte → Byte} {p q : Fin 8} {s : State}
    (h : exec i s = aluDivide op f (regByte p) (regByte q) s) (hz : s.getReg q = 0#8) :
    Raises i s (.divisionByZero op) :=
  h.trans ((withRegs_regByte p q s _).trans (if_pos hz))

/-- Settles O4: DIV is the checked operation `/`, the quotient of the numbers. -/
theorem divGivesUnsignedQuotient : Obligations.DivGivesUnsignedQuotient :=
  ⟨fun _ _ => ⟨rfl, rfl⟩, checksRR_of_withRegs fun _ _ _ => ⟨_, rfl⟩,
    fun _ _ _ => ⟨fun hz => putsRegister_of_aluDivide rfl hz BitVec.toNat_udiv, raises_of_aluDivide rfl⟩⟩

/-- Settles O5: MOD is the checked operation `%`, the remainder of the numbers. -/
theorem modGivesUnsignedRemainder : Obligations.ModGivesUnsignedRemainder :=
  ⟨fun _ _ => ⟨rfl, rfl⟩, checksRR_of_withRegs fun _ _ _ => ⟨_, rfl⟩,
    fun _ _ _ => ⟨fun hz => putsRegister_of_aluDivide rfl hz BitVec.toNat_umod, raises_of_aluDivide rfl⟩⟩

/-- CMP with legal registers writes FL and advances (R122). -/
theorem exec_cmp_regByte (i j : Fin 8) (s : State) : exec (.cmp (regByte i) (regByte j)) s =
    .next (({ s with fl := cmpFlags s.fl (s.getReg i) (s.getReg j) } : State).resolvePc 2 none) :=
  withRegs_regByte i j s _

/-- Settles O12: the three flags of `cmpFlags` are comparisons of the numbers, and it keeps bits 7:3. -/
theorem cmpSetsThreeFlags : Obligations.CmpSetsThreeFlags := by
  refine ⟨fun _ _ => ⟨rfl, rfl⟩, checksRR_of_withRegs fun _ _ _ => ⟨_, rfl⟩, fun i j s =>
    ⟨_, exec_cmp_regByte i j s, ?_, flagGt_cmpFlags _ _ _, flagLt_cmpFlags _ _ _, cmpFlags_keeps _ _ _, pcPlus_of_pc_eq rfl,
      fun _ _ => rfl, ⟨rfl, rfl, rfl, rfl⟩, rfl, fun _ _ => rfl⟩⟩
  refine (flagEq_cmpFlags s.fl (s.getReg i) (s.getReg j)).trans ?_
  rw [beq_eq_decide]
  exact decide_eq_decide.mpr BitVec.toNat_inj.symm

end Sys2Proof.Machine

/-! Proofs for 42_data_move.md, part 2: LD and ST (R131, R132). -/

namespace Sys2Proof.Machine

theorem keepsRegsBut_of_set {s t : State} {d : Fin 8} {v : Byte} (h : t.x = s.x.set d v) : KeepsRegsBut [d] s t := fun k hk => by
  rw [State.getReg_eq, h, Regs.get_set, if_neg (List.mem_singleton.not.mp hk), State.getReg_eq]

theorem keepsMemBut_of_write {s t : State} {a v : Byte} (h : t.mem = s.mem.write a v) : KeepsMemBut [a] s t := fun b hb => by
  rw [State.readMem_eq, h, Memory.read_write_of_ne _ _ _ _ (List.mem_singleton.not.mp hb), State.readMem_eq]

/-- Settles O14: LD writes one register, with the byte that a read at the other's value gives. -/
theorem ldReadsTheByteAtRegB : Obligations.LdReadsTheByteAtRegB :=
  ⟨fun _ _ => ⟨rfl, rfl⟩, checksRR_of_withRegs fun _ _ _ => ⟨_, rfl⟩,
    fun i j s => putsRegister_of_setReg (withRegs_regByte i j s _) rfl⟩

/-- Settles O15: ST is one write of Memory. -/
theorem stWritesRegBAtRegA : Obligations.StWritesRegBAtRegA :=
  ⟨fun _ _ => ⟨rfl, rfl⟩, checksRR_of_withRegs fun _ _ _ => ⟨_, rfl⟩, fun i j s =>
    ⟨_, withRegs_regByte i j s _, Memory.read_write_same _ _ _, keepsMemBut_of_write rfl, pcPlus_of_pc_eq rfl,
      fun _ _ => rfl, rfl, ⟨rfl, rfl, rfl, rfl⟩, rfl⟩⟩

end Sys2Proof.Machine

/-! Proofs for 43_stack.md: PUSH and POP (R140, R141). -/

namespace Sys2Proof.Machine

/-- SP - 1 wraps modulo 256 (R56). -/
theorem toNat_sub_one (v : Byte) : (v - 1#8).toNat = (v.toNat + 255) % 256 := by
  rw [BitVec.toNat_sub, Nat.add_comm]
  rfl

theorem exec_push_regByte (i : Fin 8) (s : State) :
    exec (.push (regByte i)) s = .next ((s.push (s.getReg i)).resolvePc 1 none) :=
  withReg_regByte i s _

theorem exec_pop_regByte (i : Fin 8) (s : State) : exec (.pop (regByte i)) s = .next ((s.popReg i).resolvePc 1 none) :=
  withReg_regByte i s _

theorem State.popReg_keepsRegsBut (s : State) (i : Fin 8) : KeepsRegsBut [i, 7] s (s.popReg i) := fun k hk => by
  obtain ⟨hi, h7⟩ : k ≠ i ∧ k ≠ 7 := by simpa using hk
  simp [hi, h7]

/-- Settles O16: SP and the byte below it are written, with the value read before. -/
theorem pushStoresBelowSp : Obligations.PushStoresBelowSp :=
  ⟨fun _ => ⟨rfl, fun _ => rfl⟩, checksR_of_withReg fun _ _ => ⟨_, rfl⟩, fun i s =>
    ⟨_, exec_push_regByte i s, toNat_sub_one _, keepsRegsBut_of_set rfl, Memory.read_write_same _ _ _,
      keepsMemBut_of_write rfl, pcPlus_of_pc_eq rfl, rfl, ⟨rfl, rfl, rfl, rfl⟩, rfl⟩⟩

/-- Settles O17: the register is written after SP, so POP R7 ends with the popped byte. -/
theorem popLoadsTopOfStack : Obligations.PopLoadsTopOfStack := by
  refine ⟨fun _ => ⟨rfl, fun _ => rfl⟩, checksR_of_withReg fun _ _ => ⟨_, rfl⟩, fun i s =>
    ⟨_, exec_pop_regByte i s, by simp, fun hi => ?_, s.popReg_keepsRegsBut i, fun _ _ => rfl, pcPlus_of_pc_eq rfl, rfl,
      ⟨rfl, rfl, rfl, rfl⟩, rfl⟩⟩
  simp [hi.symm, BitVec.toNat_add]

/-- Settles O33: the byte PUSH wrote is the one POP reads, at the same SP, and SP comes back. -/
theorem pushThenPopRestores : Obligations.PushThenPopRestores := by
  intro s i j hj
  refine ⟨_, _, exec_push_regByte i s, exec_pop_regByte j _, by simp, fun k hk => ?_, keepsMemBut_of_write rfl,
    pcPlus_of_pc_eq (BitVec.add_assoc _ _ _)⟩
  have hkj : k ≠ j := List.mem_singleton.not.mp hk
  by_cases hk7 : k = 7
  · simp [hk7, hj.symm]
  · simp [hkj, hk7]

end Sys2Proof.Machine

/-! Proofs for 44_control.md: the jumps, CALL and RET (R150 to R157). -/

namespace Sys2Proof.Machine

/-- An instruction that writes the PC alone. -/
theorem onlySetsPc_of_resolvePc {i : Instr} {s : State} {n p : Nat} {d : Option Byte}
    (h : exec i s = .next (s.resolvePc n d)) (hp : (s.resolvePc n d).pc.toNat = p) : OnlySetsPc i s p :=
  ⟨_, h, hp, fun _ _ => rfl, rfl, ⟨rfl, rfl, rfl, rfl⟩, rfl, fun _ _ => rfl⟩

/-- A jump goes to the register's value when it is taken, and to the next instruction when not. -/
theorem onlySetsPc_of_jumpIf {i : Instr} {c : Bool} {p : Fin 8} {s : State} (h : exec i s = jumpIf c (regByte p) s) :
    (c = true → OnlySetsPc i s (s.getReg p).toNat) ∧ (c = false → OnlySetsPc i s ((s.pc.toNat + 2) % 256)) := by
  have hrun := h.trans (withReg_regByte p s _)
  constructor <;> rintro rfl
  · exact onlySetsPc_of_resolvePc hrun rfl
  · exact onlySetsPc_of_resolvePc hrun (BitVec.toNat_add s.pc 2#8)

/-- Settles O18: JMP is a jump that is always taken. -/
theorem jmpGoesToRegA : Obligations.JmpGoesToRegA :=
  ⟨fun _ => ⟨rfl, fun _ => rfl⟩, checksR_of_withReg fun _ _ => ⟨_, rfl⟩,
    fun _ _ => (onlySetsPc_of_jumpIf (c := true) rfl).1 rfl⟩

/-- Settles O19: JEQ is a jump on EQ. -/
theorem jeqJumpsWhenEqual : Obligations.JeqJumpsWhenEqual :=
  ⟨fun _ => ⟨rfl, fun _ => rfl⟩, checksR_of_withReg fun _ _ => ⟨_, rfl⟩,
    fun _ s => onlySetsPc_of_jumpIf (c := flagEq s.fl) rfl⟩

/-- Settles O20: JNE is a jump on the negation of EQ. -/
theorem jneJumpsWhenNotEqual : Obligations.JneJumpsWhenNotEqual := by
  refine ⟨fun _ => ⟨rfl, fun _ => rfl⟩, checksR_of_withReg fun _ _ => ⟨_, rfl⟩, fun i s => ?_⟩
  obtain ⟨htaken, hnot⟩ := onlySetsPc_of_jumpIf (c := !flagEq s.fl) (i := .jne (regByte i)) (s := s) rfl
  exact ⟨fun hf => htaken (congrArg Bool.not hf), fun hf => hnot (congrArg Bool.not hf)⟩

/-- Settles O21: JGT is a jump on GT. -/
theorem jgtJumpsWhenGreater : Obligations.JgtJumpsWhenGreater :=
  ⟨fun _ => ⟨rfl, fun _ => rfl⟩, checksR_of_withReg fun _ _ => ⟨_, rfl⟩,
    fun _ s => onlySetsPc_of_jumpIf (c := flagGt s.fl) rfl⟩

/-- Settles O22: JLT is a jump on LT. -/
theorem jltJumpsWhenLess : Obligations.JltJumpsWhenLess :=
  ⟨fun _ => ⟨rfl, fun _ => rfl⟩, checksR_of_withReg fun _ _ => ⟨_, rfl⟩,
    fun _ s => onlySetsPc_of_jumpIf (c := flagLt s.fl) rfl⟩

theorem exec_call_regByte (i : Fin 8) (s : State) :
    exec (.call (regByte i)) s = .next ((s.push (s.pc + 2#8)).resolvePc 1 (some (s.getReg i))) :=
  withReg_regByte i s _

theorem exec_ret (s : State) : exec .ret s = .next (s.pop.2.resolvePc 0 (some s.pop.1)) := rfl

/-- Settles O23: CALL pushes PC + 2 as PUSH pushes a register, and its target is read before. -/
theorem callPushesPcPlusTwo : Obligations.CallPushesPcPlusTwo :=
  ⟨fun _ => ⟨rfl, fun _ => rfl⟩, checksR_of_withReg fun _ _ => ⟨_, rfl⟩, fun i s =>
    ⟨_, exec_call_regByte i s, rfl, toNat_sub_one _, keepsRegsBut_of_set rfl,
      (congrArg BitVec.toNat (Memory.read_write_same _ _ _)).trans (BitVec.toNat_add s.pc 2#8), keepsMemBut_of_write rfl, rfl,
      ⟨rfl, rfl, rfl, rfl⟩, rfl⟩⟩

/-- Settles O24: RET pops the PC. -/
theorem retPopsThePc : Obligations.RetPopsThePc :=
  ⟨⟨rfl, fun _ _ => rfl⟩, fun s => ⟨_, exec_ret s, rfl, BitVec.toNat_add _ 1#8, keepsRegsBut_of_set rfl, fun _ _ => rfl, rfl,
    ⟨rfl, rfl, rfl, rfl⟩, rfl⟩⟩

/-- Settles O34: RET reads the return address that CALL left at the same SP. -/
theorem callThenRetReturns : Obligations.CallThenRetReturns := by
  intro s i
  refine ⟨_, exec_call_regByte i s, keepsRegsBut_of_set rfl, fun w hsp hbyte => ⟨_, exec_ret w, ?_, ?_, keepsRegsBut_of_set rfl⟩⟩
  · have hret : w.readMem (w.getReg 7) = s.pc + 2#8 := hbyte.trans (by simp)
    exact (congrArg BitVec.toNat hret).trans (BitVec.toNat_add s.pc 2#8)
  · have hw : w.x.get 7 = s.x.get 7 - 1#8 := hsp.trans (by simp)
    simp [hw]

end Sys2Proof.Machine

/-! Proofs for 45_system.md: NOP, HLT, PRN, PRA, INT and IRET (R170 to R175). -/

namespace Sys2Proof.Machine

/-- Settles O25: NOP is the default advance. -/
theorem nopOnlyAdvances : Obligations.NopOnlyAdvances :=
  ⟨⟨rfl, fun _ _ => rfl⟩, fun s => onlySetsPc_of_resolvePc (d := none) rfl (BitVec.toNat_add s.pc 1#8)⟩

/-- Settles O26: HLT writes RUN and advances. -/
theorem hltHaltsPastItself : Obligations.HltHaltsPastItself :=
  ⟨⟨rfl, fun _ _ => rfl⟩, fun _ => ⟨_, rfl, rfl, pcPlus_of_pc_eq rfl, fun _ _ => rfl, rfl, rfl, rfl, rfl, rfl, fun _ _ => rfl⟩⟩

theorem onlyEmits_of_emit {i : Instr} {s : State} {e : OutEvent} {n : Nat}
    (h : exec i s = .next ((s.emit e).resolvePc n none)) : OnlyEmits i s e (n + 1) :=
  ⟨_, h, rfl, pcPlus_of_pc_eq rfl, fun _ _ => rfl, rfl, ⟨rfl, rfl, rfl, rfl⟩, fun _ _ => rfl⟩

/-- Settles O27: PRN emits Num of its register. -/
theorem prnEmitsNum : Obligations.PrnEmitsNum :=
  ⟨fun _ => ⟨rfl, fun _ => rfl⟩, checksR_of_withReg fun _ _ => ⟨_, rfl⟩,
    fun i s => onlyEmits_of_emit (withReg_regByte i s _)⟩

/-- Settles O28: PRA emits Chr of its register. -/
theorem praEmitsChr : Obligations.PraEmitsChr :=
  ⟨fun _ => ⟨rfl, fun _ => rfl⟩, checksR_of_withReg fun _ _ => ⟨_, rfl⟩,
    fun i s => onlyEmits_of_emit (withReg_regByte i s _)⟩

theorem exec_int_regByte (i : Fin 8) (s : State) :
    exec (.int (regByte i)) s = .next (({ s with is := s.is ||| intBits (s.getReg i) } : State).resolvePc 1 none) :=
  withReg_regByte i s _

/-- Settles O29: the bits ORed into IS are the one of the register's value (`intBits_getLsbD`). -/
theorem intSetsTheNamedLine : Obligations.IntSetsTheNamedLine := by
  refine ⟨fun _ => ⟨rfl, fun _ => rfl⟩, checksR_of_withReg fun _ _ => ⟨_, rfl⟩, fun i s hv =>
    ⟨_, exec_int_regByte i s, fun k => ?_, pcPlus_of_pc_eq rfl, fun _ _ => rfl, rfl, rfl, rfl, rfl, rfl, fun _ _ => rfl⟩⟩
  rw [← intBits_getLsbD hv k]
  exact BitVec.getLsbD_or

/-- Settles O30: the bits ORed into IS are the free value, and OR clears none. -/
theorem intOutOfRangeOnlyAddsToIs : Obligations.IntOutOfRangeOnlyAddsToIs := by
  refine fun i s hv => ⟨_, exec_int_regByte i s, congrArg (s.is ||| ·) (intBits_of_gt hv), fun k hk => ?_, pcPlus_of_pc_eq rfl,
    fun _ _ => rfl, rfl, rfl, rfl, rfl, rfl, fun _ _ => rfl⟩
  rw [State.resolvePc_is, BitVec.getLsbD_or, hk, Bool.true_or]

/-- Settles O31: the closed form of the return. -/
theorem iretRestoresTheFrame : Obligations.IretRestoresTheFrame := by
  refine ⟨⟨rfl, fun _ _ => rfl⟩, fun s => ⟨s.interruptReturn, rfl, ?_⟩⟩
  rw [State.interruptReturn_eq]
  exact ⟨rfl, rfl, rfl, rfl, rfl, rfl, rfl, rfl, rfl, BitVec.toNat_add _ 9#8, rfl, rfl, rfl, rfl, rfl, fun _ _ => rfl⟩

end Sys2Proof.Machine

/-! Proofs for 60_exceptions.md section 2: the interrupt check, the entry, the return from a handler (R206 to R211), and the fused
step (40_dispatch.md R101). -/

namespace Sys2Proof.Machine

/-- Settles O38: `step_halted`. -/
theorem haltedStepDoesNothing : Obligations.HaltedStepDoesNothing := step_halted

/-- Settles O39: an armed engine with an enabled pending line takes one (`takesLine_of_pending`), any other fetches. -/
theorem interruptTakenExactlyWhenArmedAndPending : Obligations.InterruptTakenExactlyWhenArmedAndPending := by
  refine fun s => ⟨fun hrun hie hp => ?_, fun hrun hno => step_instruction s hrun (s.takenLine_none.mpr hno), step_halted s⟩
  obtain ⟨i, hl, hbit⟩ := takesLine_of_pending hrun hie hp
  exact ⟨i, hbit, step_of_takesLine hl⟩

theorem toNat_sub_nine (v : Byte) : (v - 9#8).toNat = (v.toNat + 247) % 256 := by
  rw [BitVec.toNat_sub, Nat.add_comm]
  rfl

theorem State.interruptEntry_x (s : State) (i : Fin 8) : (s.interruptEntry i).x = s.x.set 7 (s.x.get 7 - 9#8) := by
  rw [State.interruptEntry_eq]

/-- The vector is read after the pushes, so from the Memory that entry leaves (D26). -/
theorem State.interruptEntry_pc (s : State) (i : Fin 8) :
    (s.interruptEntry i).pc = (s.interruptEntry i).readMem (vectorAddress i) := rfl

/-- Settles O40: the lowest enabled pending line is the one taken, and entry does to each field what its lemma says. -/
theorem interruptEntrySavesNineBytes : Obligations.InterruptEntrySavesNineBytes := by
  intro s i hrun hie hbit hlow
  obtain ⟨hpc, hfl, h0, h1, h2, h3, h4, h5, h6⟩ := s.interruptEntry_frame i
  have hsp : (s.interruptEntry i).getReg 7 = s.getReg 7 - 9#8 := by simp [State.interruptEntry_x]
  exact ⟨_, step_taken s i hrun ((s.takenLine_some i).mpr ⟨hie, hbit, hlow⟩), s.interruptEntry_is i,
    (congrArg BitVec.toNat hsp).trans (toNat_sub_nine _), keepsRegsBut_of_set (s.interruptEntry_x i),
    hpc, hfl, h0, h1, h2, h3, h4, h5, h6, s.interruptEntry_keepsMemBut i, s.interruptEntry_pc i, s.interruptEntry_ie i,
    s.interruptEntry_fl i, s.interruptEntry_ir i, s.interruptEntry_run i, s.interruptEntry_out i⟩

/-! ### The return to the interrupted program -/

/-- A running engine that is masked executes the IRET at its PC. -/
theorem step_iret {w : State} (hrun : w.run = .running) (hie : w.ie = false) (hop : w.readMem w.pc = 0x0B#8) :
    step w = .next w.fetched.interruptReturn := by
  have hf : FetchesInstr w .iret := by
    rw [FetchesInstr, hop]
    rfl
  exact step_of_fetchesInstr ⟨hrun, w.takenLine_masked hie⟩ hf

/-- Seen from the SP that an entry leaves, the frame is the byte at SP and the eight above it (R209). -/
theorem add_mem_frameAddresses (s : State) (k : Fin 9) : s.getReg 7 - 9#8 + BitVec.ofNat 8 k.val ∈ frameAddresses s := by
  have hoff : 9#8 - BitVec.ofNat 8 k.val ∈ [1#8, 2#8, 3#8, 4#8, 5#8, 6#8, 7#8, 8#8, 9#8] := by
    revert k
    decide
  rw [sub_add]
  exact List.mem_map_of_mem (f := (s.getReg 7 - ·)) hoff

/-- A return from a state whose SP and frame are those an entry from `s` left restores registers, FL and PC of `s`: each pop reads the
byte of its own push. -/
theorem State.interruptReturn_restores {s w : State} {i : Fin 8} (hsp : w.getReg 7 = (s.interruptEntry i).getReg 7)
    (hmem : ∀ a ∈ frameAddresses s, w.readMem a = (s.interruptEntry i).readMem a) :
    KeepsRegsBut [] s w.interruptReturn ∧ w.interruptReturn.fl = s.fl ∧ w.interruptReturn.pc = s.pc := by
  obtain ⟨hpc, hfl, h0, h1, h2, h3, h4, h5, h6⟩ := s.interruptEntry_frame i
  have hw : w.x.get 7 = s.x.get 7 - 9#8 := hsp.trans (by simp [State.interruptEntry_x])
  have hpop (k : Fin 9) {v : Byte} (hv : (s.interruptEntry i).readMem (s.getReg 7 - (9#8 - BitVec.ofNat 8 k.val)) = v) :
      w.mem.read (w.x.get 7 + BitVec.ofNat 8 k.val) = v := by
    rw [hw, ← hv, ← sub_add]
    exact hmem _ (add_mem_frameAddresses s k)
  refine ⟨fun j _ => ?_, (State.interruptReturn_fl w).trans (hpop 7 hfl), (State.interruptReturn_pc w).trans (hpop 8 hpc)⟩
  rw [State.getReg_eq, State.interruptReturn_x]
  match j with
  | 0 => exact hpop 6 h0
  | 1 => exact hpop 5 h1
  | 2 => exact hpop 4 h2
  | 3 => exact hpop 3 h3
  | 4 => exact hpop 2 h4
  | 5 => exact hpop 1 h5
  | 6 => exact hpop 0 h6
  | 7 => simp [hw]

/-- Settles O41: the handler's IRET is executed, and its return restores what the entry saved. -/
theorem interruptIsTransparentToTheProgram : Obligations.InterruptIsTransparentToTheProgram := by
  intro s t w i hl h hrun hie hsp hmem hop
  rw [step_of_takesLine hl] at h
  cases h
  obtain ⟨hx, hfl, hpc⟩ := State.interruptReturn_restores (w := w.fetched) hsp hmem
  exact ⟨_, step_iret hrun hie hop, hx, hfl, hpc, State.interruptReturn_ie _, State.interruptReturn_is _,
    State.interruptReturn_out _, State.interruptReturn_run _, fun _ _ => by simp⟩

/-! ### The fused step -/

theorem stepWith_fused_of_takesLine {s : State} {i : Fin 8} (hl : TakesLine s i) :
    stepWith true s = (s.interruptEntry i).instructionStep := by
  simp [stepWith, hl.1, hl.2]

/-- Without a line to take `FUSE_INT_ENTRY` makes no difference. -/
theorem stepWith_fused_of_no_line {s : State} (hl : ∀ i, ¬ TakesLine s i) : stepWith true s = step s := by
  rw [step_eq, stepWith, stepWith]
  rcases hr : s.run with _ | c
  · rcases ht : s.takenLine with _ | i
    · rfl
    · exact absurd ⟨hr, ht⟩ (hl i)
  · rfl

/-- Settles O42: the second step, from the entry's state, is masked and so runs an instruction, as the fused step does. -/
theorem fusedStepIsTheSameRun : Obligations.FusedStepIsTheSameRun := by
  refine fun s => ⟨fun i t hl h => ?_, stepWith_fused_of_no_line⟩
  rw [step_of_takesLine hl] at h
  cases h
  rw [stepWith_fused_of_takesLine hl, step_instruction _ ((s.interruptEntry_run i).trans hl.1)
    (State.takenLine_masked _ (s.interruptEntry_ie i))]

end Sys2Proof.Machine

/-! Proofs for 70_reset_and_hazards.md: reset, configuration and the host's moves (R240 to R246). -/

namespace Sys2Proof.Machine

/-- Settles O58: the table of R34; with IS = 0 no line is pending. -/
theorem resetLeavesTheTableOfR34 : Obligations.ResetLeavesTheTableOfR34 := by
  refine ⟨fun s => ⟨?_, rfl, rfl, rfl, rfl, rfl, rfl, rfl, (State.takenLine_none _).mpr (.inr BitVec.zero_and), rfl, rfl⟩, rfl⟩
  change ∀ k : Fin 8, k ≠ 7 → State.reset.getReg k = 0#8
  decide

/-- Settles O59: `configure` tests the size, and a step always answers a next state. -/
theorem addressOutOfRangeIsConfigurationOnly : Obligations.AddressOutOfRangeIsConfigurationOnly := by
  refine ⟨fun n m hn => if_pos hn, fun _ => rfl, fun s f h => ?_⟩
  obtain ⟨t, ht⟩ := step_total s
  rw [ht] at h
  cases h

theorem Session.apply_step {s t : State} (b : Bool) (h : step s = .next t) :
    Session.apply ⟨s, b⟩ .step = .next ⟨t, true⟩ := by
  rw [Session.apply, h]

/-- Settles O60: loadByte is one write of Memory and an accessor's write one of its register; both are refused once a step has run. -/
theorem loadByteWritesMemoryBeforeTheFirstStepOnly : Obligations.LoadByteWritesMemoryBeforeTheFirstStepOnly := by
  refine ⟨fun s a v => ⟨s.writeMem a v, rfl, Memory.read_write_same _ _ _, keepsMemBut_of_write rfl, rfl⟩,
    fun s t a v b h => ⟨Session.apply_step b h, rfl, rfl⟩, fun _ _ _ => rfl, fun s w v => ⟨s.writeAccessor w v, rfl, ?_,
      fun u hu => ?_, rfl, s.writeAccessor_mem w v, s.writeAccessor_out w v, s.writeAccessor_ie w v, s.writeAccessor_run w v⟩⟩
  · rw [State.readAccessor_writeAccessor, if_pos rfl]
  · rw [State.readAccessor_writeAccessor, if_neg hu]

end Sys2Proof.Machine
